-- ==== Sys2Proof/Word.lean ====
section
/-! DEFINITION. The unsigned words of CHC (`00_scope.md` rules R8, R9): every quantity is an unsigned integer of a fixed width. -/

namespace Sys2Proof

/-- `u8`: one byte of the wire; bit 7 is its most significant bit (R8). -/
abbrev Byte := BitVec 8

/-- `u24`: the width of the time and length fields on the wire (R63 to R65). -/
abbrev U24 := BitVec 24

/-- `u32`: sub-stream ids, timestamps, message stream ids, the extension (R7, D1). -/
abbrev U32 := BitVec 32

end Sys2Proof
end

