-- ==== Sys2Proof/Syntax.lean ====
section
/-! DEFINITION. The records of `10_state.md` (R21 to R24) and the instructions: one constructor of `Instr` for each row of
`opcode_table.json` (the twelve wire forms, the extended-timestamp suffix and the five port operations). -/

namespace Sys2Proof

/-- R21, as it stands in a decoded header: a 2-bit format and the logical sub-stream id. -/
structure BasicHeader where
  format : BitVec 2
  subStreamID : U32
  deriving DecidableEq, Repr, Inhabited

/-- R22: all five fields are always present. -/
structure MessageHeader where
  timestamp : U32
  timestampDelta : U32
  messageLength : U24
  messageTypeID : Byte
  messageStreamID : U32
  deriving DecidableEq, Repr, Inhabited

/-- R23: a basic header, a message header and an optional extended timestamp (valid bit and value). -/
structure ChunkHeader where
  basic : BasicHeader
  message : MessageHeader
  extV : Bool
  ext : U32
  deriving DecidableEq, Repr, Inhabited

/-- R24: the encoder operand. Its format is 8 bits wide, so that `UnknownFormat` can occur (D1). -/
structure EncOperand where
  format : BitVec 8
  subStreamID : U32
  message : MessageHeader
  extV : Bool
  ext : U32
  deriving DecidableEq, Repr, Inhabited

/-- The rows of the opcode table. A wire form's operands are the field letters of its pattern in
`44_chunk_header_forms.md`, as values (the byte order of a field is `Decode`'s business). -/
inductive Instr where
  /-- R180, `CH0.B1`. -/
  | ch0b1 (cs : BitVec 6) (t l : U24) (y : Byte) (m : U32)
  /-- R181, `CH0.B2`. -/
  | ch0b2 (i : BitVec 8) (t l : U24) (y : Byte) (m : U32)
  /-- R182, `CH0.B3`. -/
  | ch0b3 (i : BitVec 16) (t l : U24) (y : Byte) (m : U32)
  /-- R183, `CH1.B1`. -/
  | ch1b1 (cs : BitVec 6) (d l : U24) (y : Byte)
  /-- R184, `CH1.B2`. -/
  | ch1b2 (i : BitVec 8) (d l : U24) (y : Byte)
  /-- R185, `CH1.B3`. -/
  | ch1b3 (i : BitVec 16) (d l : U24) (y : Byte)
  /-- R186, `CH2.B1`. -/
  | ch2b1 (cs : BitVec 6) (d : U24)
  /-- R187, `CH2.B2`. -/
  | ch2b2 (i : BitVec 8) (d : U24)
  /-- R188, `CH2.B3`. -/
  | ch2b3 (i : BitVec 16) (d : U24)
  /-- R189, `CH3.B1`. -/
  | ch3b1 (cs : BitVec 6)
  /-- R190, `CH3.B2`. -/
  | ch3b2 (i : BitVec 8)
  /-- R191, `CH3.B3`. -/
  | ch3b3 (i : BitVec 16)
  /-- R192, `XTS`: the extended-timestamp suffix. -/
  | xts (e : U32)
  /-- R150, `ENC`: the request carries the encoder operand. -/
  | enc (h : EncOperand)
  /-- R153, `DEC`: the request carries nothing. -/
  | dec
  /-- R158, `HPUSH`: the request carries one header. -/
  | hpush (h : ChunkHeader)
  /-- R159, `HCLR`. -/
  | hclr
  /-- R230, `RESET`. -/
  | reset
  deriving DecidableEq, Repr

/-- The operations the host issues on the ports (R79, R230). They have no binary opcode: the port selects them. -/
inductive HostOp where
  | enc (h : EncOperand)
  | dec
  | hpush (h : ChunkHeader)
  | hclr
  | reset
  deriving DecidableEq, Repr

/-- The instruction a port operation stands for (R79). -/
def HostOp.toInstr : HostOp → Instr
  | .enc h => .enc h
  | .dec => .dec
  | .hpush h => .hpush h
  | .hclr => .hclr
  | .reset => .reset

/-- A form: a format and a basic-header width in bytes (R75). -/
structure Form where
  fmt : BitVec 2
  width : Nat
  deriving DecidableEq, Repr

/-- The form of a wire instruction; the suffix and the port operations have none (R75). -/
def Instr.form : Instr → Option Form
  | .ch0b1 _ _ _ _ _ => some ⟨0, 1⟩
  | .ch0b2 _ _ _ _ _ => some ⟨0, 2⟩
  | .ch0b3 _ _ _ _ _ => some ⟨0, 3⟩
  | .ch1b1 _ _ _ _ => some ⟨1, 1⟩
  | .ch1b2 _ _ _ _ => some ⟨1, 2⟩
  | .ch1b3 _ _ _ _ => some ⟨1, 3⟩
  | .ch2b1 _ _ => some ⟨2, 1⟩
  | .ch2b2 _ _ => some ⟨2, 2⟩
  | .ch2b3 _ _ => some ⟨2, 3⟩
  | .ch3b1 _ => some ⟨3, 1⟩
  | .ch3b2 _ => some ⟨3, 2⟩
  | .ch3b3 _ => some ⟨3, 3⟩
  | .xts _ => none
  | .enc _ => none
  | .dec => none
  | .hpush _ => none
  | .hclr => none
  | .reset => none

end Sys2Proof
end

