-- ==== Sys2Proof/Config.lean ====
section
/-! DEFINITION. The constants of `00_scope.md` rule R6, the open type `IoErr` of rule R7 as an uninterpreted parameter, and the
one free value. -/

namespace Sys2Proof.Config

/-- `S` = 2^24 - 1: the saturated value of a 24-bit time field, "see extended timestamp" (R6). -/
def S : Nat := 16777215

/-- `SSID_MIN` (R6). -/
def ssidMin : Nat := 2

/-- `SSID_MAX` (R6). -/
def ssidMax : Nat := 65599

/-- `SSID_LIMIT`: the least id that fails ENC (R6). -/
def ssidLimit : Nat := 65600

/-- `B2_LO`: the least id that takes the 2-byte basic header (R6). -/
def b2Lo : Nat := 64

/-- `B3_LO`: the least id that takes the 3-byte basic header (R6). -/
def b3Lo : Nat := 320

/-- `SSID_BIAS` (R6). -/
def ssidBias : Nat := 64

/-- `MARK2`: the id-field value that selects the 2-byte form (R6). -/
def mark2 : BitVec 6 := 0

/-- `MARK3`: the id-field value that selects the 3-byte form; 1, not 63 (R6, C1). -/
def mark3 : BitVec 6 := 1

/-- `MH_LEN`: message-header bytes per format (R6). -/
def mhLen (f : BitVec 2) : Nat :=
  if f = 0 then 11 else if f = 1 then 7 else if f = 2 then 3 else 0

/-- `XTS_LEN` (R6). -/
def xtsLen : Nat := 4

/-- `HDR_MAX` (R6). -/
def hdrMax : Nat := 18

/-- `HDR_MIN` (R6). -/
def hdrMin : Nat := 1

/-- Which natural numbers stand for a value of `IoErr`. It has no body: the type is OPEN (R7, D3), so how many values it has
is not known, and it may be the unit type. -/
opaque isIoErr : Nat → Bool

/-- `IoErr`, the type of an I/O failure value: a parameter of the model (R7, D3). DESIGN CHOICE (entry 1): its values are the
numbers that
`isIoErr` admits, and 0, so that there is one. The model copies a value and never inspects it. -/
structure IoErr where
  code : Nat
  valid : (code == 0 || isIoErr code) = true
  deriving DecidableEq, Repr

/-- The cleared value: what step 0 of R153 leaves in `DH.io` (entry 17). -/
def IoErr.zero : IoErr := ⟨0, rfl⟩

/-- FREE VALUE (entry 4): the nine header fields of `DH` after the `n`-th failed DEC. They "have no meaning" (R210) and are
"any value" (U3), so nothing is said of them. -/
opaque freeHeader : Nat → ChunkHeader

end Sys2Proof.Config
end

