-- ==== Sys2Proof/WellFormed.lean ====
section
/-! DEFINITION. Which instructions are well-formed: the id field of a 1-byte form is not one of the two markers
(`30_encoding.md` rules R62, R71, R75). Every other operand may hold any value (R72, R73; ENC and HPUSH operands are taken as
given, R74, R158). -/

namespace Sys2Proof

/-- The id field of a 1-byte basic header is 2 to 63: 0 and 1 mark the longer forms (R71). -/
def wfId (cs : BitVec 6) : Bool := cs != Config.mark2 && cs != Config.mark3

/-- The check of an instruction. -/
def Instr.wf : Instr → Bool
  | .ch0b1 cs _ _ _ _ => wfId cs
  | .ch0b2 _ _ _ _ _ => true
  | .ch0b3 _ _ _ _ _ => true
  | .ch1b1 cs _ _ _ => wfId cs
  | .ch1b2 _ _ _ _ => true
  | .ch1b3 _ _ _ _ => true
  | .ch2b1 cs _ => wfId cs
  | .ch2b2 _ _ => true
  | .ch2b3 _ _ => true
  | .ch3b1 cs => wfId cs
  | .ch3b2 _ => true
  | .ch3b3 _ => true
  | .xts _ => true
  | .enc _ => true
  | .dec => true
  | .hpush _ => true
  | .hclr => true
  | .reset => true

end Sys2Proof
end

