-- ==== Sys2Proof/Decode.lean ====
section
/-! DEFINITION. The byte helpers of `00_scope.md` rule R11, the decoder from wire bytes to an instruction, total and rejecting
by name, the encoder from an instruction to its bytes, and the form table of `30_encoding.md` rule R75. -/

namespace Sys2Proof

/-! ### Byte strings (R11) -/

/-- `be16`: two bytes, most significant first. -/
def be16 (v : BitVec 16) : List Byte := [v.extractLsb' 8 8, v.extractLsb' 0 8]

/-- `be24`: three bytes, most significant first. -/
def be24 (v : U24) : List Byte := [v.extractLsb' 16 8, v.extractLsb' 8 8, v.extractLsb' 0 8]

/-- `be32`: four bytes, most significant first. -/
def be32 (v : U32) : List Byte :=
  [v.extractLsb' 24 8, v.extractLsb' 16 8, v.extractLsb' 8 8, v.extractLsb' 0 8]

/-- `le32`: four bytes, least significant first; the message stream id alone uses it (R44, R134). -/
def le32 (v : U32) : List Byte :=
  [v.extractLsb' 0 8, v.extractLsb' 8 8, v.extractLsb' 16 8, v.extractLsb' 24 8]

/-- `ub16`, the inverse of `be16`. -/
def ub16 (a b : Byte) : BitVec 16 := a ++ b

/-- `ub24`, the inverse of `be24`. -/
def ub24 (a b c : Byte) : U24 := a ++ b ++ c

/-- `ub32`, the inverse of `be32`. -/
def ub32 (a b c d : Byte) : U32 := a ++ b ++ c ++ d

/-- `ul32`, the inverse of `le32`: the first byte is the least significant (R134). -/
def ul32 (a b c d : Byte) : U32 := d ++ c ++ b ++ a

/-! ### Byte 0 (R61, R45) -/

/-- Bits 7:6 of byte 0: the format. -/
def fmtOf (b0 : Byte) : BitVec 2 := b0.extractLsb' 6 2

/-- Bits 5:0 of byte 0: the id field. -/
def csOf (b0 : Byte) : BitVec 6 := b0.extractLsb' 0 6

/-- Byte 0 from a format and an id field: `(f << 6) | cs` (R101). -/
def byte0 (f : BitVec 2) (cs : BitVec 6) : Byte := f ++ cs

/-- The width of the basic header that byte 0 announces (R68 step 1). -/
def widthOf (b0 : Byte) : Nat :=
  if csOf b0 = Config.mark2 then 2 else if csOf b0 = Config.mark3 then 3 else 1

/-! ### The decoder -/

/-- Why a byte string is not yet an instruction. No byte string is illegal (R72): it can only be too short. -/
inductive DecodeError where
  /-- Not all bytes of the basic header are there. -/
  | basicHeaderShort
  /-- The basic header is there, not all bytes of the message header. -/
  | messageHeaderShort
  /-- Fewer than the four bytes of the suffix. -/
  | suffixShort
  deriving DecidableEq, Repr

/-- The id field as the three basic-header forms carry it (R62). -/
inductive IdField where
  | b1 (cs : BitVec 6)
  | b2 (i : BitVec 8)
  | b3 (i : BitVec 16)
  deriving DecidableEq, Repr

/-- The basic header after byte 0: one, two or no further bytes (R106 to R109). -/
def decodeId (b0 : Byte) (bs : List Byte) : Except DecodeError (IdField × List Byte) :=
  if csOf b0 = Config.mark2 then
    match bs with
    | i :: rest => .ok (.b2 i, rest)
    | _ => .error .basicHeaderShort
  else if csOf b0 = Config.mark3 then
    match bs with
    | hi :: lo :: rest => .ok (.b3 (ub16 hi lo), rest)
    | _ => .error .basicHeaderShort
  else .ok (.b1 (csOf b0), bs)

/-- The instruction of a format-0 header. -/
def mkCh0 (t l : U24) (y : Byte) (m : U32) : IdField → Instr
  | .b1 cs => .ch0b1 cs t l y m
  | .b2 i => .ch0b2 i t l y m
  | .b3 i => .ch0b3 i t l y m

/-- The instruction of a format-1 header. -/
def mkCh1 (d l : U24) (y : Byte) : IdField → Instr
  | .b1 cs => .ch1b1 cs d l y
  | .b2 i => .ch1b2 i d l y
  | .b3 i => .ch1b3 i d l y

/-- The instruction of a format-2 header. -/
def mkCh2 (d : U24) : IdField → Instr
  | .b1 cs => .ch2b1 cs d
  | .b2 i => .ch2b2 i d
  | .b3 i => .ch2b3 i d

/-- The instruction of a format-3 header. -/
def mkCh3 : IdField → Instr
  | .b1 cs => .ch3b1 cs
  | .b2 i => .ch3b2 i
  | .b3 i => .ch3b3 i

/-- The message header behind a basic header of format `f` (R63 to R66). -/
def decodeMessage (f : BitVec 2) (id : IdField) (bs : List Byte) : Except DecodeError (Instr × List Byte) :=
  if f = 0 then
    match bs with
    | t0 :: t1 :: t2 :: l0 :: l1 :: l2 :: y :: m0 :: m1 :: m2 :: m3 :: rest =>
      .ok (mkCh0 (ub24 t0 t1 t2) (ub24 l0 l1 l2) y (ul32 m0 m1 m2 m3) id, rest)
    | _ => .error .messageHeaderShort
  else if f = 1 then
    match bs with
    | d0 :: d1 :: d2 :: l0 :: l1 :: l2 :: y :: rest =>
      .ok (mkCh1 (ub24 d0 d1 d2) (ub24 l0 l1 l2) y id, rest)
    | _ => .error .messageHeaderShort
  else if f = 2 then
    match bs with
    | d0 :: d1 :: d2 :: rest => .ok (mkCh2 (ub24 d0 d1 d2) id, rest)
    | _ => .error .messageHeaderShort
  else .ok (mkCh3 id, bs)

/-- A chunk header without its suffix: one of the twelve forms and the bytes behind it (R68 steps 1 and 2, R75). -/
def decodeHeader : List Byte → Except DecodeError (Instr × List Byte)
  | [] => .error .basicHeaderShort
  | b0 :: bs =>
    match decodeId b0 bs with
    | .ok (id, rest) => decodeMessage (fmtOf b0) id rest
    | .error e => .error e

/-- The suffix: four bytes, most significant first (R67). -/
def decodeSuffix : List Byte → Except DecodeError (Instr × List Byte)
  | e0 :: e1 :: e2 :: e3 :: rest => .ok (.xts (ub32 e0 e1 e2 e3), rest)
  | _ => .error .suffixShort

/-- The two parts of a header that the decoder reads as a whole: the form, and the suffix. Which one it reads next is no
matter of the bytes alone (R67, R145). -/
inductive Part where
  | header
  | suffix
  deriving DecidableEq, Repr

/-- The decoder: the instruction that the bytes at the cursor spell, and the bytes behind it. -/
def decode : Part → List Byte → Except DecodeError (Instr × List Byte)
  | .header, bs => decodeHeader bs
  | .suffix, bs => decodeSuffix bs

/-! ### The encoder -/

/-- The basic header of a 1-byte form (R101). -/
def bh1 (f : BitVec 2) (cs : BitVec 6) : List Byte := [byte0 f cs]

/-- The basic header of a 2-byte form (R102). -/
def bh2 (f : BitVec 2) (i : BitVec 8) : List Byte := [byte0 f Config.mark2, i]

/-- The basic header of a 3-byte form (R103). -/
def bh3 (f : BitVec 2) (i : BitVec 16) : List Byte := byte0 f Config.mark3 :: be16 i

/-- The format-0 message header (R63). -/
def mh0 (t l : U24) (y : Byte) (m : U32) : List Byte := be24 t ++ be24 l ++ [y] ++ le32 m

/-- The format-1 message header (R64). -/
def mh1 (d l : U24) (y : Byte) : List Byte := be24 d ++ be24 l ++ [y]

/-- The format-2 message header (R65). -/
def mh2 (d : U24) : List Byte := be24 d

/-- The bytes of a wire instruction, by the patterns of `44_chunk_header_forms.md`. The port operations have no bit
encoding (R79). -/
def encode : Instr → Option (List Byte)
  | .ch0b1 cs t l y m => some (bh1 0 cs ++ mh0 t l y m)
  | .ch0b2 i t l y m => some (bh2 0 i ++ mh0 t l y m)
  | .ch0b3 i t l y m => some (bh3 0 i ++ mh0 t l y m)
  | .ch1b1 cs d l y => some (bh1 1 cs ++ mh1 d l y)
  | .ch1b2 i d l y => some (bh2 1 i ++ mh1 d l y)
  | .ch1b3 i d l y => some (bh3 1 i ++ mh1 d l y)
  | .ch2b1 cs d => some (bh1 2 cs ++ mh2 d)
  | .ch2b2 i d => some (bh2 2 i ++ mh2 d)
  | .ch2b3 i d => some (bh3 2 i ++ mh2 d)
  | .ch3b1 cs => some (bh1 3 cs)
  | .ch3b2 i => some (bh2 3 i)
  | .ch3b3 i => some (bh3 3 i)
  | .xts e => some (be32 e)
  | .enc _ => none
  | .dec => none
  | .hpush _ => none
  | .hclr => none
  | .reset => none

/-- The part of a header an instruction is read as. -/
def Instr.part : Instr → Part
  | .xts _ => .suffix
  | _ => .header

/-! ### The form table (R75) -/

/-- One row of R75: a form, mask and match on byte 0, the excluded values, the length without the suffix. -/
structure FormRow where
  form : Form
  mask : Byte
  pattern : Byte
  excluded : List Byte
  length : Nat
  deriving DecidableEq, Repr

/-- The row applies to byte 0. -/
def FormRow.selects (r : FormRow) (b0 : Byte) : Bool :=
  b0 &&& r.mask == r.pattern && !r.excluded.contains b0

/-- The table of R75. -/
def formRows : List FormRow :=
  [⟨⟨0, 1⟩, 0xC0, 0x00, [0x00, 0x01], 12⟩, ⟨⟨0, 2⟩, 0xFF, 0x00, [], 13⟩, ⟨⟨0, 3⟩, 0xFF, 0x01, [], 14⟩,
   ⟨⟨1, 1⟩, 0xC0, 0x40, [0x40, 0x41], 8⟩, ⟨⟨1, 2⟩, 0xFF, 0x40, [], 9⟩, ⟨⟨1, 3⟩, 0xFF, 0x41, [], 10⟩] ++
  [⟨⟨2, 1⟩, 0xC0, 0x80, [0x80, 0x81], 4⟩, ⟨⟨2, 2⟩, 0xFF, 0x80, [], 5⟩, ⟨⟨2, 3⟩, 0xFF, 0x81, [], 6⟩,
   ⟨⟨3, 1⟩, 0xC0, 0xC0, [0xC0, 0xC1], 1⟩, ⟨⟨3, 2⟩, 0xFF, 0xC0, [], 2⟩, ⟨⟨3, 3⟩, 0xFF, 0xC1, [], 3⟩]

/-! ### The opcode table's numbering of bits -/

/-- The bytes of a word whose bit 0 is the least significant bit of the first byte, and whose later bytes count on from
there. Every bit above `nbits` is 0, up to the longest header (18 bytes, `HDR_MAX`). -/
def wordBytes (nbits w : Nat) : List Byte :=
  (List.range Config.hdrMax).map fun k => BitVec.ofNat 8 (w % 2 ^ nbits / 2 ^ (8 * k))

/-- The instruction the decoder reads from a word numbered as the opcode table numbers it. Byte 0 selects one of the
twelve forms (R75); the suffix has no selecting bits and the port operations no bits (R192, R79; entry 20). -/
def decodeTableWord (nbits w : Nat) : Option Instr :=
  match decodeHeader (wordBytes nbits w) with
  | .ok (i, _) => some i
  | .error _ => none

end Sys2Proof
end

