-- ==== Sys2Proof/Machine/State.lean ====
section
/-! DEFINITION. The state of CHC (`10_state.md` rules R20 to R33) as plain data, with the two external agents' part in it
(`00_scope.md` rule R5), the reasons a step can stop, and the state after reset (R31, R230). -/

namespace Sys2Proof.Machine

open Sys2Proof.Config (IoErr)

/-- The result codes of ENC and DEC (`60_exceptions.md` rule R200, D7). -/
inductive Status where
  | ok
  | invalidSubStreamID
  | unknownFormat
  | noPreviousChunk
  | endOfStream
  | ioFailure
  deriving DecidableEq, Repr

/-- What the byte source gives to one request (`20_memory.md` rule R41). -/
inductive Answer where
  /-- The next byte of the stream. -/
  | byte (b : Byte)
  /-- `End`: the stream has ended cleanly before this byte. -/
  | ended
  /-- `Fail e`: the source failed. -/
  | failed (e : IoErr)
  deriving DecidableEq, Repr

/-- DH, the decoder result register (R25). `header` holds its nine header fields. -/
structure DecResult where
  status : Status
  io : IoErr
  header : ChunkHeader
  bhLen : BitVec 2
  mhLen : BitVec 4
  xtsLen : BitVec 3
  consumed : BitVec 5
  faultPos : BitVec 5
  deriving DecidableEq, Repr

/-- All message fields zero. -/
def zeroMessage : MessageHeader := ⟨0, 0, 0, 0, 0⟩

/-- All nine header fields zero. -/
def zeroHeader : ChunkHeader := ⟨⟨0, 0⟩, zeroMessage, false, 0⟩

/-- DH with all fields zero (R153 step 0). -/
def DecResult.cleared : DecResult := ⟨.ok, IoErr.zero, zeroHeader, 0, 0, 0, 0, 0⟩

/-- EH with all fields zero (entry 3). -/
def zeroOperand : EncOperand := ⟨0, 0, zeroMessage, false, 0⟩

/-- What the decoder is doing: nothing (the DEC and HIST ports are ready), or reading a part of a header (they are not:
R52, R79). -/
inductive DecPhase where
  | idle
  | reading (k : Part)
  deriving DecidableEq, Repr

/-- What the external agents do next (R5, entry 6). -/
inductive Input where
  /-- The host issues an operation on a port (R79). -/
  | op (o : HostOp)
  /-- The byte source makes its answer to the next unanswered request (R41). -/
  | answer (a : Answer)
  /-- The host takes one answer from the byte source for itself, between decodes (R5, R27, R55). -/
  | hostRead
  /-- The host writes the encoder's output to SNK, byte 0 first (R42). -/
  | hostSend
  deriving DecidableEq, Repr

/-- The whole machine. INVENTORY.md lists each field with its rule and its reset value. -/
structure State where
  /-- EH, the encoder operand register (R24). -/
  eh : EncOperand
  /-- The ENC port's response: status (R79). -/
  encStatus : Status
  /-- The ENC port's response: the bytes (R42, R79); `out_len` is their number (R152). -/
  out : List Byte
  /-- DH, the decoder result register (R25). -/
  dh : DecResult
  /-- DH holds the result of a DEC that has ended (entry 18). -/
  dhValid : Bool
  /-- The part the decoder is reading (R153, R161). -/
  dec : DecPhase
  /-- The bytes consumed of that part so far (R30). -/
  part : List Byte
  /-- `p`, the bytes this DEC has consumed (R153). -/
  p : Nat
  /-- `cur`, the byte cursor (R27). -/
  cur : Nat
  /-- HIST, oldest entry first (R26). -/
  hist : List ChunkHeader
  /-- SRC: the source's answers to the next requests; none listed means it has not answered yet (R40, R41). -/
  src : List Answer
  /-- SNK: what has been written to the outgoing stream (R40). -/
  snk : List Byte
  /-- What the external agents do next, in order of time (entry 6). -/
  inputs : List Input
  /-- The model's own count of free values drawn (entry 4). -/
  draws : Nat
  deriving DecidableEq, Repr

/-- Reasons to stop with a fault: there is none. CHC has no trap (R211), no byte string is illegal (R72), and every error
reaches the host as a status, which is a next state (R200). Safe: a step that cannot fault hides nothing. -/
inductive Fault where
  deriving DecidableEq, Repr

/-- Reasons to refuse a step. -/
inductive Refusal where
  /-- Raised by `exec` for an instruction with no meaning yet; no arm is left that does. Safe. -/
  | notModelled (mnemonic : String)
  /-- Raised by DEC while a DEC is in progress: the DEC port is not ready and the spec gives the overlap no step (R52, D18,
  U8). Safe. -/
  | decPortBusy
  /-- Raised by HPUSH and HCLR while a DEC is in progress: the HIST port is not ready and the spec gives the overlap no step
  (R52, D18, U8). Safe. -/
  | histPortBusy
  /-- Raised by a byte read of the host while a DEC is in progress: the host reads between DEC operations only (R5, R55;
  entry 12). Safe. -/
  | hostReadDuringDec
  deriving DecidableEq, Repr

/-- What a step of this machine answers. -/
abbrev Result := Host.Outcome State Fault Refusal

/-- The machine right after reset (R31, R230): `HIST` empty, `cur` 0, the encoder output empty, no operation in progress, all
ports ready. EH, DH and the ENC status have no reset value in the spec: zero and `OK` here (DESIGN CHOICE, entry 3). Nothing
has been sent or asked by the external agents (entry 7). -/
def State.reset : State :=
  { eh := zeroOperand
    encStatus := .ok
    out := []
    dh := DecResult.cleared
    dhValid := false
    dec := .idle
    part := []
    p := 0
    cur := 0
    hist := []
    src := []
    snk := []
    inputs := []
    draws := 0 }

end Sys2Proof.Machine
end

