-- ==== Sys2Proof/Machine/Operands.lean ====
section
/-! DEFINITION. How logical values are made of wire fields and back (`30_encoding.md` rule R70), the numeric codes of the
statuses (R200), and the parts of a header the encoder emits (`40_basic_header.md`, `41_message_header.md`). -/

namespace Sys2Proof.Machine

/-! ### Decode side -/

/-- The id of a 1-byte basic header: the 6-bit field itself (R109). -/
def idB1 (cs : BitVec 6) : U32 := BitVec.ofNat 32 cs.toNat

/-- The id of a 2-byte basic header: the byte plus 64 (R107). -/
def idB2 (i : BitVec 8) : U32 := BitVec.ofNat 32 (i.toNat + Config.ssidBias)

/-- The id of a 3-byte basic header: the 16-bit value plus 64 (R108). -/
def idB3 (i : BitVec 16) : U32 := BitVec.ofNat 32 (i.toNat + Config.ssidBias)

/-- A 24-bit time field as the u32 of a logical header: zero-extended (R70, R11). -/
def timeOf (v : U24) : U32 := BitVec.ofNat 32 v.toNat

/-- The message header of a format-0 form: `timestampDelta` is left 0 (R127, R132). -/
def message0 (t l : U24) (y : Byte) (m : U32) : MessageHeader := ⟨timeOf t, 0, l, y, m⟩

/-- The message header of a format-1 form: `timestamp` and `messageStreamID` are left 0 (R128, R132). -/
def message1 (d l : U24) (y : Byte) : MessageHeader := ⟨0, timeOf d, l, y, 0⟩

/-- The message header of a format-2 form: all but the delta is left 0 (R129, R132). -/
def message2 (d : U24) : MessageHeader := ⟨0, timeOf d, 0, 0, 0⟩

/-- `DH.bh_len` as it stands when `bs` has been read of the form: the width once the basic header is whole (R106 to R109). -/
def bhLenOf : List Byte → BitVec 2
  | [] => 0
  | b0 :: bs => if widthOf b0 ≤ bs.length + 1 then BitVec.ofNat 2 (widthOf b0) else 0

/-! ### Encode side -/

/-- `clamp24`: the smaller of the value and `S` (R11, R126). -/
def clamp24 (v : U32) : U24 := BitVec.ofNat 24 (min v.toNat Config.S)

/-- `BH.ENC`: the minimal-width basic header of an id below 65,600 (R100 to R103, R105). -/
def bhEnc (f : BitVec 2) (id : U32) : List Byte :=
  if id.toNat < Config.b2Lo then bh1 f (BitVec.ofNat 6 id.toNat)
  else if id.toNat < Config.b3Lo then bh2 f (BitVec.ofNat 8 (id.toNat - Config.ssidBias))
  else bh3 f (BitVec.ofNat 16 (id.toNat - Config.ssidBias))

/-- `MH.ENC`: the message header of the format (R120 to R124, R126). -/
def mhEnc (f : BitVec 2) (m : MessageHeader) : List Byte :=
  if f = 0 then mh0 (clamp24 m.timestamp) m.messageLength m.messageTypeID m.messageStreamID
  else if f = 1 then mh1 (clamp24 m.timestampDelta) m.messageLength m.messageTypeID
  else if f = 2 then mh2 (clamp24 m.timestampDelta)
  else []

/-! ### Codes -/

/-- The 3-bit code of a status; 6 and 7 are never produced (R200, U12). -/
def Status.code : Status → BitVec 3
  | .ok => 0
  | .invalidSubStreamID => 1
  | .unknownFormat => 2
  | .noPreviousChunk => 3
  | .endOfStream => 4
  | .ioFailure => 5

end Sys2Proof.Machine
end

