-- ==== Sys2Proof/Machine/Flags.lean ====
section
/-! DEFINITION. CHC has no condition codes (`10_state.md` rule R28). Its one flag is `ext_v`; the tests behind it are here: the
decoder's sentinel test and the encoder's extension test (`42_extended_timestamp.md` rules R140, R143). -/

namespace Sys2Proof.Machine

/-- The decoder's test: one of the two time fields equals `S`; equality, not `>=` (R143). -/
def sentinel (m : MessageHeader) : Bool :=
  m.timestamp.toNat == Config.S || m.timestampDelta.toNat == Config.S

/-- The encoder's test and value: the timestamp if it is at least `S`, else the delta if that is, before any clamping and
whatever the format (R140 to R142). -/
def encExt (m : MessageHeader) : Option U32 :=
  if Config.S ≤ m.timestamp.toNat then some m.timestamp
  else if Config.S ≤ m.timestampDelta.toNat then some m.timestampDelta
  else none

/-- `XTS.ENC`: the suffix the encoder appends (R140). -/
def xtsEnc (m : MessageHeader) : List Byte :=
  match encExt m with
  | some v => be32 v
  | none => []

end Sys2Proof.Machine
end

