-- ==== Sys2Proof/Machine/Ops.lean ====
section
/-! DEFINITION. The shared operations: the history (`43_assembler.md` rules R157 to R159), taking bytes from the byte source
(`20_memory.md` rule R41), the course of a DEC (R153), and raising an error, which is CHC's counterpart of taking an exception
(`60_exceptions.md` rules R203 to R205, R209 to R211). There is no return from an error (R212). -/

namespace Sys2Proof.Machine

open Sys2Proof.Config (IoErr)

/-! ### The history -/

/-- `HistLookup`: the newest entry with this sub-stream id (R157). -/
def histLookup (hist : List ChunkHeader) (id : U32) : Option ChunkHeader :=
  hist.reverse.find? fun e => e.basic.subStreamID == id

/-- HIST replaced. -/
def State.withHist (s : State) (hist : List ChunkHeader) : State := { s with hist := hist }

/-- `HistAppend`: the header becomes the newest entry (R158). -/
def State.histAppend (s : State) (h : ChunkHeader) : State := s.withHist (s.hist ++ [h])

/-! ### Ports (R79, R52) -/

/-- The DEC port and the HIST port are ready: no DEC is in progress. -/
def State.ready (s : State) : Bool := s.dec == .idle

/-- `out_len` of the ENC response (R79, R152). -/
def State.outLen (s : State) : BitVec 5 := BitVec.ofNat 5 s.out.length

/-- The ENC port's operand and response are written (R24, R79). -/
def State.encRespond (s : State) (h : EncOperand) (k : Status) (bs : List Byte) : State :=
  { s with eh := h, encStatus := k, out := bs }

/-! ### The course of a DEC -/

/-- R153 step 0: DH is cleared, nothing is consumed yet, and the decoder reads a form next. -/
def State.startDec (s : State) : State :=
  { s with dh := DecResult.cleared, dhValid := false, dec := .reading .header, part := [], p := 0 }

/-- The sentinel test held: the partly filled DH is kept and the decoder reads the suffix next (R143, R30). -/
def State.awaitSuffix (s : State) (d : DecResult) : State :=
  { s with dh := d, dhValid := false, dec := .reading .suffix, part := [] }

/-- `DH.consumed`: the sum of the three part lengths (R154). -/
def DecResult.total (d : DecResult) : BitVec 5 := d.bhLen.setWidth 5 + d.mhLen.setWidth 5 + d.xtsLen.setWidth 5

/-- R153 step 4: the count and the status are set and the result is presented. -/
def State.finishDec (s : State) (d : DecResult) : State :=
  { s with dh := { d with status := .ok, consumed := d.total }, dhValid := true, dec := .idle, part := [], p := 0 }

/-- A DEC ends with an error (R210): status, failure value and `fault_pos` are recorded, what was consumed stays consumed, no
header is returned (its fields in DH are a free value, U3, entry 4), and the ports are ready again. Control goes nowhere
(R211). -/
def State.raiseDec (s : State) (k : Status) (io : IoErr) (d : DecResult) : State :=
  { s with
    dh := { d with status := k, io := io, header := Config.freeHeader s.draws, faultPos := BitVec.ofNat 5 s.p }
    dhValid := true
    dec := .idle
    part := []
    p := 0
    draws := s.draws + 1 }

/-- DH after the message header, before the sentinel test: freshly built from cleared fields (R25, R153 steps 1 and 2). -/
def headerResult (f : BitVec 2) (id : U32) (m : MessageHeader) (bh : BitVec 2) (mh : BitVec 4) : DecResult :=
  { DecResult.cleared with header := ⟨⟨f, id⟩, m, false, 0⟩, bhLen := bh, mhLen := mh }

/-- After the message header: the suffix is read if the sentinel test holds, else the DEC ends (R143, R153 steps 3 and 4). -/
def State.afterMessage (s : State) (d : DecResult) : State :=
  if sentinel d.header.message then s.awaitSuffix d else s.finishDec d

/-- `MH3.DEC`: the five message fields are those of the newest entry of the id; without one, `NoPreviousChunk` (R130, R131). -/
def State.inheritMessage (s : State) (id : U32) (bh : BitVec 2) : State :=
  match histLookup s.hist id with
  | some e => s.afterMessage (headerResult 3 id e.message bh 0)
  | none => s.raiseDec .noPreviousChunk IoErr.zero { DecResult.cleared with bhLen := bh }

/-- The suffix has been read: it is recorded, the time fields stay, and the DEC ends (R143, R144). -/
def State.recordExt (s : State) (e : U32) : State :=
  s.finishDec { s.dh with header := { s.dh.header with extV := true, ext := e }, xtsLen := 4 }

/-! ### The byte source -/

/-- How a run of byte requests comes to its end. -/
inductive Stop where
  /-- The bytes spell an instruction; no further request is made (R47). -/
  | complete (i : Instr)
  /-- The source has not answered yet (R251). -/
  | waiting
  /-- A request was answered `End`. -/
  | ended
  /-- A request was answered `Fail e`. -/
  | failed (e : IoErr)
  deriving DecidableEq, Repr

/-- Request bytes, one at a time, until those of the part are all there or a request is not answered with a byte: the bytes of
the part, the answers left, and how it ended. What was delivered stays consumed (R41, R47, R155). -/
def pull (k : Part) (bs : List Byte) : List Answer → List Byte × List Answer × Stop
  | [] =>
    match decode k bs with
    | .ok (i, _) => (bs, [], .complete i)
    | .error _ => (bs, [], .waiting)
  | a :: rest =>
    match decode k bs with
    | .ok (i, _) => (bs, a :: rest, .complete i)
    | .error _ =>
      match a with
      | .byte b => pull k (bs ++ [b]) rest
      | .ended => (bs, rest, .ended)
      | .failed e => (bs, rest, .failed e)

/-- `n` bytes have been delivered to the decoder: `cur` and `p` advance (R12, R153). -/
def State.consume (s : State) (bs : List Byte) (src : List Answer) (n : Nat) : State :=
  { s with part := bs, src := src, cur := s.cur + n, p := s.p + n }

/-- DH as an I/O-class error in part `k` finds it: inside the form only `bh_len` may have been set (R153, entry 5). -/
def State.errorResult (s : State) (k : Part) : DecResult :=
  match k with
  | .header => { s.dh with bhLen := bhLenOf s.part }
  | .suffix => s.dh

/-- The host takes one answer from the source for itself: a byte moves `cur`, the other answers do not (R27, R41). -/
def State.hostTake (s : State) (a : Answer) (rest : List Answer) : State :=
  match a with
  | .byte _ => { s with src := rest, cur := s.cur + 1 }
  | .ended => { s with src := rest }
  | .failed _ => { s with src := rest }

/-! ### The external agents -/

/-- The rest of the inputs. -/
def State.withInputs (s : State) (rest : List Input) : State := { s with inputs := rest }

/-- The source's answer to a later request becomes known (R41). -/
def State.arrive (s : State) (a : Answer) : State := { s with src := s.src ++ [a] }

/-- The host writes the encoder's output to SNK in order (R42). After an ENC error `out` is empty and nothing is written
(R152). -/
def State.send (s : State) : State := { s with snk := s.snk ++ s.out }

/-! ### Reset -/

/-- Reset (R230): everything of CHC is as after reset, an operation in progress is abandoned without a result. What is
outside CHC stays: the byte source's answers, SNK, what the agents do next, and the count of free values drawn (entry 10). -/
def State.resetCodec (s : State) : State :=
  { State.reset with src := s.src, snk := s.snk, inputs := s.inputs, draws := s.draws }

end Sys2Proof.Machine
end

