-- ==== Sys2Proof/Machine/Encoder.lean ====
section
/-! DEFINITION. ENC (`43_assembler.md` rules R150 to R152): the encoder is a pure function of its operand. -/

namespace Sys2Proof.Machine

/-- The two errors of ENC (R201, R202). -/
inductive EncError where
  | invalidSubStreamID
  | unknownFormat
  deriving DecidableEq, Repr

/-- The status an error is reported as (R200). -/
def EncError.status : EncError → Status
  | .invalidSubStreamID => .invalidSubStreamID
  | .unknownFormat => .unknownFormat

/-- `ENC` as a function (R150): the id is checked before the format (R207), both before any byte is made (R125), then basic
header, message header and suffix in this order. `ext_v` and `ext` are not read (R147). -/
def encHeader (h : EncOperand) : Except EncError (List Byte) :=
  if Config.ssidLimit ≤ h.subStreamID.toNat then .error .invalidSubStreamID
  else if 3 < h.format.toNat then .error .unknownFormat
  else
    let f : BitVec 2 := h.format.extractLsb' 0 2
    .ok (bhEnc f h.subStreamID ++ mhEnc f h.message ++ xtsEnc h.message)

/-- R150, `ENC`: the operand is written to EH, and the response is the whole header or an error and no bytes (R152, R209).
It may run at any time, also during a DEC (R53). -/
def execEnc (h : EncOperand) (s : State) : Result :=
  match encHeader h with
  | .ok bs => .next (s.encRespond h .ok bs)
  | .error e => .next (s.encRespond h e.status [])

end Sys2Proof.Machine
end

