-- ==== Sys2Proof/Machine/Forms.lean ====
section
/-! DEFINITION. The twelve wire forms (`44_chunk_header_forms.md` rules R180 to R191): what the decoder does when the bytes of
a form have been read. Each is a definition of its own over the shared operations of `Ops`. -/

namespace Sys2Proof.Machine

/-- R180, `CH0.B1`: format 0; `timestampDelta` is 0 (R109, R127). -/
def execCh0b1 (cs : BitVec 6) (t l : U24) (y : Byte) (m : U32) (s : State) : Result :=
  .next (s.afterMessage (headerResult 0 (idB1 cs) (message0 t l y m) 1 11))

/-- R181, `CH0.B2`: format 0; `timestampDelta` is 0 (R107, R127). -/
def execCh0b2 (i : BitVec 8) (t l : U24) (y : Byte) (m : U32) (s : State) : Result :=
  .next (s.afterMessage (headerResult 0 (idB2 i) (message0 t l y m) 2 11))

/-- R182, `CH0.B3`: format 0; `timestampDelta` is 0 (R108, R127). -/
def execCh0b3 (i : BitVec 16) (t l : U24) (y : Byte) (m : U32) (s : State) : Result :=
  .next (s.afterMessage (headerResult 0 (idB3 i) (message0 t l y m) 3 11))

/-- R183, `CH1.B1`: format 1; `timestamp` and `messageStreamID` are 0 (R109, R128). -/
def execCh1b1 (cs : BitVec 6) (d l : U24) (y : Byte) (s : State) : Result :=
  .next (s.afterMessage (headerResult 1 (idB1 cs) (message1 d l y) 1 7))

/-- R184, `CH1.B2`: format 1; `timestamp` and `messageStreamID` are 0 (R107, R128). -/
def execCh1b2 (i : BitVec 8) (d l : U24) (y : Byte) (s : State) : Result :=
  .next (s.afterMessage (headerResult 1 (idB2 i) (message1 d l y) 2 7))

/-- R185, `CH1.B3`: format 1; `timestamp` and `messageStreamID` are 0 (R108, R128). -/
def execCh1b3 (i : BitVec 16) (d l : U24) (y : Byte) (s : State) : Result :=
  .next (s.afterMessage (headerResult 1 (idB3 i) (message1 d l y) 3 7))

/-- R186, `CH2.B1`: format 2; all message fields but the delta are 0 (R109, R129). -/
def execCh2b1 (cs : BitVec 6) (d : U24) (s : State) : Result :=
  .next (s.afterMessage (headerResult 2 (idB1 cs) (message2 d) 1 3))

/-- R187, `CH2.B2`: format 2; all message fields but the delta are 0 (R107, R129). -/
def execCh2b2 (i : BitVec 8) (d : U24) (s : State) : Result :=
  .next (s.afterMessage (headerResult 2 (idB2 i) (message2 d) 2 3))

/-- R188, `CH2.B3`: format 2; all message fields but the delta are 0 (R108, R129). -/
def execCh2b3 (i : BitVec 16) (d : U24) (s : State) : Result :=
  .next (s.afterMessage (headerResult 2 (idB3 i) (message2 d) 3 3))

/-- R189, `CH3.B1`: format 3; the message fields come from the history, or `NoPreviousChunk` (R109, R130, R131). -/
def execCh3b1 (cs : BitVec 6) (s : State) : Result :=
  .next (s.inheritMessage (idB1 cs) 1)

/-- R190, `CH3.B2`: format 3; the message fields come from the history, or `NoPreviousChunk` (R107, R130, R131). -/
def execCh3b2 (i : BitVec 8) (s : State) : Result :=
  .next (s.inheritMessage (idB2 i) 2)

/-- R191, `CH3.B3`: format 3; the message fields come from the history, or `NoPreviousChunk` (R108, R130, R131). -/
def execCh3b3 (i : BitVec 16) (s : State) : Result :=
  .next (s.inheritMessage (idB3 i) 3)

end Sys2Proof.Machine
end

