-- ==== Sys2Proof/Machine/HostOps.lean ====
section
/-! DEFINITION. The port operations DEC, HPUSH, HCLR (`43_assembler.md` rules R153, R158, R159) and RESET
(`70_reset_and_hazards.md` rule R230). The DEC and HIST ports are not ready while a DEC is in progress, and the spec gives the
overlap no step (`20_memory.md` rule R52, U8). -/

namespace Sys2Proof.Machine

/-- R153, `DEC`: step 0, then the decoder reads a header from the cursor on. -/
def execDec (s : State) : Result :=
  if s.ready then .next s.startDec else .refused .decPortBusy

/-- R158, `HPUSH`: the operand is stored as given. -/
def execHpush (h : ChunkHeader) (s : State) : Result :=
  if s.ready then .next (s.histAppend h) else .refused .histPortBusy

/-- R159, `HCLR`: HIST is emptied, `cur` stays. -/
def execHclr (s : State) : Result :=
  if s.ready then .next (s.withHist []) else .refused .histPortBusy

/-- R230, `RESET`: at any time; an operation in progress is abandoned. -/
def execReset (s : State) : Result := .next s.resetCodec

end Sys2Proof.Machine
end

