-- ==== Sys2Proof/Machine/Suffix.lean ====
section
/-! DEFINITION. The extended-timestamp suffix (`44_chunk_header_forms.md` rule R192, `42_extended_timestamp.md` rules R143,
R144, R148). -/

namespace Sys2Proof.Machine

/-- R192, `XTS`: the four bytes are recorded in `DH.ext` with `ext_v` set, whatever their value, and the DEC ends. The
decoder reads them only where the sentinel test of R143 holds (entry 16). -/
def execXts (e : U32) (s : State) : Result := .next (s.recordExt e)

end Sys2Proof.Machine
end

