-- ==== Sys2Proof/Machine/Dispatch.lean ====
section
/-! DEFINITION. One arm for each constructor of `Instr`, each one call of the instruction's meaning. -/

namespace Sys2Proof.Machine

def exec (i : Instr) (s : State) : Host.Outcome State Fault Refusal :=
  match i with
  | .ch0b1 cs t l y m => Sys2Proof.Machine.execCh0b1 cs t l y m s
  | .ch0b2 x t l y m => Sys2Proof.Machine.execCh0b2 x t l y m s
  | .ch0b3 x t l y m => Sys2Proof.Machine.execCh0b3 x t l y m s
  | .ch1b1 cs d l y => Sys2Proof.Machine.execCh1b1 cs d l y s
  | .ch1b2 x d l y => Sys2Proof.Machine.execCh1b2 x d l y s
  | .ch1b3 x d l y => Sys2Proof.Machine.execCh1b3 x d l y s
  | .ch2b1 cs d => Sys2Proof.Machine.execCh2b1 cs d s
  | .ch2b2 x d => Sys2Proof.Machine.execCh2b2 x d s
  | .ch2b3 x d => Sys2Proof.Machine.execCh2b3 x d s
  | .ch3b1 cs => Sys2Proof.Machine.execCh3b1 cs s
  | .ch3b2 x => Sys2Proof.Machine.execCh3b2 x s
  | .ch3b3 x => Sys2Proof.Machine.execCh3b3 x s
  | .xts e => Sys2Proof.Machine.execXts e s
  | .enc h => Sys2Proof.Machine.execEnc h s
  | .dec => Sys2Proof.Machine.execDec s
  | .hpush h => Sys2Proof.Machine.execHpush h s
  | .hclr => Sys2Proof.Machine.execHclr s
  | .reset => Sys2Proof.Machine.execReset s

end Sys2Proof.Machine
end

