-- ==== Sys2Proof/Machine/Cycle.lean ====
section
/-! DEFINITION. What one step does: the decoder takes bytes and runs the instruction they spell, or the next thing an external
agent does happens (`00_scope.md` rule R5, `43_assembler.md` rule R153, `70_reset_and_hazards.md` rule R251; entries 6, 8, 9). -/

namespace Sys2Proof.Machine

/-- The decoder, reading part `k`, asks the source for bytes (R153). The bytes of the part are all there: the instruction they
spell runs. The source has not answered: the decoder keeps what it has and waits (R251). `End` or `Fail`: the DEC ends with
the error (R110, R135, R146, R204, R205). -/
def fetch (k : Part) (s : State) : Result :=
  match pull k s.part s.src with
  | (bs, src, stop) =>
    let s' := s.consume bs src (bs.length - s.part.length)
    match stop with
    | .complete i => exec i s'
    | .waiting => .next s'
    | .ended => .next (s'.raiseDec .endOfStream Config.IoErr.zero (s'.errorResult k))
    | .failed e => .next (s'.raiseDec .ioFailure e (s'.errorResult k))

/-- The next thing an external agent does. With none listed, or with a host read that the source has not answered, nothing
happens. -/
def takeInput (s : State) : Result :=
  match s.inputs with
  | [] => .next s
  | .op o :: rest => exec o.toInstr (s.withInputs rest)
  | .answer a :: rest => .next ((s.withInputs rest).arrive a)
  | .hostSend :: rest => .next (s.withInputs rest).send
  | .hostRead :: rest =>
    if s.ready then
      match s.src with
      | [] => .next s
      | a :: src => .next ((s.withInputs rest).hostTake a src)
    else .refused .hostReadDuringDec

/-- The decoder goes on while the source has answers for it; otherwise it waits and an external agent may act (R53, R251). -/
def cycle (s : State) : Result :=
  match s.dec, s.src with
  | .reading k, _ :: _ => fetch k s
  | .reading _, [] => takeInput s
  | .idle, _ => takeInput s

/-- The state right after a DEC was issued, with the bytes of a word next in the source (entry 7). -/
def State.withWord (s : State) (nbits w : Nat) : State :=
  { s.startDec with src := (wordBytes nbits w).map Answer.byte ++ s.src }

end Sys2Proof.Machine
end

