-- ==== Sys2Proof/Machine/Whole.lean ====
section
/-! DEFINITION. DEC as one whole operation, written out byte request by byte request from the pseudocode of
`43_assembler.md` rule R153 and the unit rules it calls (R106 to R109, R127 to R131, R143). The machine runs a DEC in up to
three steps; this is the reading of the spec that those steps are held against. Also: running the decoder until it is done or
has to wait. -/

namespace Sys2Proof.Machine

open Sys2Proof.Config (IoErr)

/-- How a whole DEC comes out. -/
inductive DecEnd where
  /-- OK: the header, the three part lengths, the answers the source has left. -/
  | ok (h : ChunkHeader) (bh mh xts : Nat) (rest : List Answer)
  /-- An error: status, failure value, the bytes consumed, the answers the source has left. -/
  | error (k : Status) (io : IoErr) (p : Nat) (rest : List Answer)
  /-- The source has not answered the request after the `p`-th byte (R251). -/
  | waiting (p : Nat)
  deriving DecidableEq, Repr

/-- `SrcRead()` (R41): one request; `p` counts the bytes delivered so far. -/
def srcRead (p : Nat) (src : List Answer) (k : Byte → Nat → List Answer → DecEnd) : DecEnd :=
  match src with
  | [] => .waiting p
  | .byte b :: rest => k b (p + 1) rest
  | .ended :: rest => .error .endOfStream IoErr.zero p rest
  | .failed e :: rest => .error .ioFailure e p rest

/-- `SrcRead(3)` of a big-endian field. -/
def srcRead24 (p : Nat) (src : List Answer) (k : U24 → Nat → List Answer → DecEnd) : DecEnd :=
  srcRead p src fun a p src => srcRead p src fun b p src => srcRead p src fun c p src => k (ub24 a b c) p src

/-- `SrcRead(4)`. -/
def srcRead4 (p : Nat) (src : List Answer) (k : Byte → Byte → Byte → Byte → Nat → List Answer → DecEnd) : DecEnd :=
  srcRead p src fun a p src => srcRead p src fun b p src =>
    srcRead p src fun c p src => srcRead p src fun d p src => k a b c d p src

/-- `XTS.DEC` and step 4 (R143, R153), after a message header. -/
def wholeXts (f : BitVec 2) (id : U32) (m : MessageHeader) (bh mh p : Nat) (src : List Answer) : DecEnd :=
  if m.timestamp.toNat = Config.S ∨ m.timestampDelta.toNat = Config.S then
    srcRead4 p src fun a b c d _ src => .ok ⟨⟨f, id⟩, m, true, ub32 a b c d⟩ bh mh 4 src
  else .ok ⟨⟨f, id⟩, m, false, 0⟩ bh mh 0 src

/-- `MH.DEC` (R120, R127 to R131), after a basic header of `bh` bytes. -/
def wholeMessage (hist : List ChunkHeader) (f : BitVec 2) (id : U32) (bh p : Nat) (src : List Answer) : DecEnd :=
  if f = 0 then
    srcRead24 p src fun t p src => srcRead24 p src fun l p src => srcRead p src fun y p src =>
      srcRead4 p src fun m0 m1 m2 m3 p src =>
        wholeXts f id ⟨timeOf t, 0, l, y, ul32 m0 m1 m2 m3⟩ bh 11 p src
  else if f = 1 then
    srcRead24 p src fun d p src => srcRead24 p src fun l p src => srcRead p src fun y p src =>
      wholeXts f id ⟨0, timeOf d, l, y, 0⟩ bh 7 p src
  else if f = 2 then
    srcRead24 p src fun d p src => wholeXts f id ⟨0, timeOf d, 0, 0, 0⟩ bh 3 p src
  else
    match histLookup hist id with
    | some e => wholeXts f id e.message bh 0 p src
    | none => .error .noPreviousChunk IoErr.zero p src

/-- `DEC` (R153): basic header (R106 to R109), message header, extension, on a history and a byte source. -/
def wholeDec (hist : List ChunkHeader) (src : List Answer) : DecEnd :=
  srcRead 0 src fun b0 p src =>
    if (csOf b0).toNat = 0 then
      srcRead p src fun b1 p src =>
        wholeMessage hist (fmtOf b0) (BitVec.ofNat 32 (b1.toNat + 64)) 2 p src
    else if (csOf b0).toNat = 1 then
      srcRead p src fun b1 p src => srcRead p src fun b2 p src =>
        wholeMessage hist (fmtOf b0) (BitVec.ofNat 32 ((ub16 b1 b2).toNat + 64)) 3 p src
    else wholeMessage hist (fmtOf b0) (BitVec.ofNat 32 (csOf b0).toNat) 1 p src

/-- Run the decoder, for at most `n` steps, until it is idle or the source has no answer for it. -/
def settle : Nat → State → Result
  | 0, s => .next s
  | n + 1, s =>
    match s.dec, s.src with
    | .reading _, _ :: _ =>
      match step s with
      | .next t => settle n t
      | .fault r => .fault r
      | .refused r => .refused r
    | _, _ => .next s

end Sys2Proof.Machine
end

