-- ==== Sys2Proof/Safety.lean ====
section
/-! DEFINITION. What a state of CHC that a run can reach looks like, and which headers are normal: the terms the statements
are made of (`40_basic_header.md` rule R113, `10_state.md` rules R22 and R25, `41_message_header.md` rule R132,
`60_exceptions.md` rules R200 and R210, `43_assembler.md` rules R154 and R163). -/

namespace Sys2Proof.Machine

/-- The ids that a basic header of `bh` bytes can spell (R113). -/
def idInRange (bh id : Nat) : Prop :=
  (bh = 1 ∧ 2 ≤ id ∧ id ≤ 63) ∨ (bh = 2 ∧ 64 ≤ id ∧ id ≤ 319) ∨ (bh = 3 ∧ 64 ≤ id ∧ id ≤ 65599)

/-- Which message fields are 0 in a header of format `f` that was decoded (R132), and how large the time fields can be (R22). -/
def messageShape (f : BitVec 2) (m : MessageHeader) : Prop :=
  (f = 0 → m.timestampDelta = 0) ∧
  (f = 1 → m.timestamp = 0 ∧ m.messageStreamID = 0) ∧
  (f = 2 → m.timestamp = 0 ∧ m.messageLength = 0 ∧ m.messageTypeID = 0 ∧ m.messageStreamID = 0) ∧
  (f ≠ 3 → m.timestamp.toNat ≤ Config.S ∧ m.timestampDelta.toNat ≤ Config.S)

/-- DH after basic and message header: id in the range of its width, message header in the shape of its format, part lengths
those consumed (R113, R132, R25). -/
def DecResult.headerRead (d : DecResult) : Prop :=
  idInRange d.bhLen.toNat d.header.basic.subStreamID.toNat ∧
  messageShape d.header.basic.format d.header.message ∧
  d.mhLen.toNat = Config.mhLen d.header.basic.format

/-- DH while the decoder is to read the suffix: the sentinel test held and nothing of the suffix or of step 4 is set yet
(R143, R153). -/
def DecResult.awaiting (d : DecResult) : Prop :=
  d.headerRead ∧ sentinel d.header.message = true ∧ d.header.extV = false ∧ d.header.ext = 0 ∧
  d.xtsLen = 0 ∧ d.consumed = 0 ∧ d.faultPos = 0

/-- DH after a successful DEC: `ext_v` exactly when a time field equals `S`, `ext` 0 without it (R23, R143), and `consumed`
the sum of the part lengths, 1 to 18 (R154). -/
def DecResult.success (d : DecResult) : Prop :=
  d.headerRead ∧ d.header.extV = sentinel d.header.message ∧ (d.header.extV = false → d.header.ext = 0) ∧
  d.xtsLen.toNat = (if d.header.extV then Config.xtsLen else 0) ∧
  d.consumed.toNat = d.bhLen.toNat + d.mhLen.toNat + d.xtsLen.toNat ∧
  Config.hdrMin ≤ d.consumed.toNat ∧ d.consumed.toNat ≤ Config.hdrMax ∧ d.faultPos = 0

/-- DH after a failed DEC: one of DEC's three errors, `fault_pos` 0 to 17, and `fault_pos` the width of the basic header, 1 to
3, for `NoPreviousChunk` (R131, R200, R204, R205). -/
def DecResult.failure (d : DecResult) : Prop :=
  (d.status = .noPreviousChunk ∨ d.status = .endOfStream ∨ d.status = .ioFailure) ∧
  d.faultPos.toNat ≤ 17 ∧
  (d.status = .noPreviousChunk →
    d.faultPos.toNat = d.bhLen.toNat ∧ 1 ≤ d.faultPos.toNat ∧ d.faultPos.toNat ≤ 3)

/-- The ENC response: one of ENC's statuses, at most 18 bytes, and none with an error (R150, R152, R200). -/
def State.encWf (s : State) : Prop :=
  (s.encStatus = .ok ∨ ((s.encStatus = .invalidSubStreamID ∨ s.encStatus = .unknownFormat) ∧ s.out = [])) ∧
  s.out.length ≤ Config.hdrMax

/-- What the decoder holds in each phase. Idle: no part in progress, and a result that is presented is a success or a failure.
Reading a form: the bytes held are the bytes consumed and do not spell a form yet. Reading the suffix: fewer than four bytes
of it are held, and `p` counts them behind the two parts before (R30, R143, R153). -/
def State.decWf (s : State) : Prop :=
  match s.dec with
  | .idle =>
    s.part = [] ∧ s.p = 0 ∧
    (s.dhValid = true →
      (s.dh.status = .ok ∧ s.dh.success ∧ s.dh.consumed.toNat ≤ s.cur) ∨
      (s.dh.failure ∧ s.dh.faultPos.toNat ≤ s.cur))
  | .reading .header =>
    s.dhValid = false ∧ s.dh = DecResult.cleared ∧ s.p = s.part.length ∧
    (decodeHeader s.part = .error .basicHeaderShort ∨ decodeHeader s.part = .error .messageHeaderShort) ∧ s.p ≤ s.cur
  | .reading .suffix =>
    s.dhValid = false ∧ s.dh.awaiting ∧ s.part.length < Config.xtsLen ∧
    s.p = s.dh.bhLen.toNat + s.dh.mhLen.toNat + s.part.length ∧ s.p ≤ s.cur

/-- The invariant: what holds of every state a run can reach. -/
def State.Inv (s : State) : Prop := s.encWf ∧ s.decWf

end Sys2Proof.Machine

namespace Sys2Proof

/-! ### Normal headers (R163) -/

/-- A header as an ENC operand. -/
def ChunkHeader.operand (h : ChunkHeader) : EncOperand :=
  ⟨h.basic.format.setWidth 8, h.basic.subStreamID, h.message, h.extV, h.ext⟩

/-- R163: the headers that survive ENC and DEC unchanged, given the history the decoder holds. -/
def ChunkHeader.normal (h : ChunkHeader) (hist : List ChunkHeader) : Prop :=
  2 ≤ h.basic.subStreamID.toNat ∧ h.basic.subStreamID.toNat ≤ 65599 ∧
  h.message.timestamp.toNat ≤ Config.S ∧ h.message.timestampDelta.toNat ≤ Config.S ∧
  (h.extV = true ↔ h.message.timestamp.toNat = Config.S ∨ h.message.timestampDelta.toNat = Config.S) ∧
  (h.extV = true → h.ext.toNat = Config.S) ∧
  (h.extV = false → h.ext = 0) ∧
  (h.basic.format = 0 → h.message.timestampDelta = 0) ∧
  (h.basic.format = 1 → h.message.timestamp = 0 ∧ h.message.messageStreamID = 0) ∧
  (h.basic.format = 2 →
    h.message.timestamp = 0 ∧ h.message.messageLength = 0 ∧ h.message.messageTypeID = 0 ∧ h.message.messageStreamID = 0) ∧
  (h.basic.format = 3 → ∃ e, Machine.histLookup hist h.basic.subStreamID = some e ∧ e.message = h.message)

end Sys2Proof
end

