-- ==== Sys2Proof/Certificates/Slice0/Obligations.lean ====
section
/-! DEFINITION. The statements for the provers, each with the rule of spec/ it formalises, and the few words they are made of. -/

namespace Sys2Proof.Claims

open Sys2Proof Sys2Proof.Machine

/-! ### Frames -/

/-- Encoder operand and response are as before. -/
def sameEncoder (s t : State) : Prop := t.eh = s.eh ∧ t.encStatus = s.encStatus ∧ t.out = s.out

/-- The decoder (DH, its phase, the bytes it holds) is as before. -/
def sameDecoder (s t : State) : Prop :=
  t.dh = s.dh ∧ t.dhValid = s.dhValid ∧ t.dec = s.dec ∧ t.part = s.part ∧ t.p = s.p ∧ t.draws = s.draws

/-- Byte source, sink and what the agents do next are as before. -/
def sameAgents (s t : State) : Prop := t.src = s.src ∧ t.snk = s.snk ∧ t.inputs = s.inputs

/-! ### Decoding -/

/-- One of the two time fields equals `S` (R143). -/
def saturated (m : MessageHeader) : Prop := m.timestamp.toNat = 16777215 ∨ m.timestampDelta.toNat = 16777215

/-- From `s` to `t`, a form of format `f` with id `id`, message header `m` and part lengths `bh`, `mh` has been decoded: DH
holds these; if a time field is saturated the decoder reads the suffix next, else the DEC has ended with status OK and
`consumed` = `bh + mh` (R143, R153, R154). Encoder, `cur`, HIST, source, sink and inputs are as before. -/
def formDecoded (s t : State) (f : BitVec 2) (id : Nat) (m : MessageHeader) (bh mh : Nat) : Prop :=
  t.dh.header.basic.format = f ∧ t.dh.header.basic.subStreamID.toNat = id ∧ t.dh.header.message = m ∧
  t.dh.bhLen.toNat = bh ∧ t.dh.mhLen.toNat = mh ∧ t.dh.header.extV = false ∧ t.dh.header.ext = 0 ∧ t.dh.xtsLen = 0 ∧
  (saturated m → t.dec = .reading .suffix ∧ t.dhValid = false ∧ t.part = [] ∧ t.p = s.p) ∧
  (¬ saturated m → t.dec = .idle ∧ t.dhValid = true ∧ t.dh.status = .ok ∧ t.dh.consumed.toNat = bh + mh ∧
    t.part = [] ∧ t.p = 0) ∧
  sameEncoder s t ∧ sameAgents s t ∧ t.cur = s.cur ∧ t.hist = s.hist ∧ t.draws = s.draws

/-- From `s` to `t`, a DEC has ended with an error after `pos` bytes: status, failure value and `fault_pos` are recorded, the
decoder is idle, HIST is unchanged (R210). Nothing is said of the nine header fields, which are a free value; that `draws`
counts it is the model's own (entry 4). Beside a status other than `IoFailure`, R210 says nothing of `io`: a statement that
gives it `IoErr.zero` there rests on the model's entry 17. -/
def decFailed (s t : State) (k : Status) (io : Config.IoErr) (pos : Nat) : Prop :=
  t.dh.status = k ∧ t.dh.io = io ∧ t.dh.faultPos = BitVec.ofNat 5 pos ∧ t.dhValid = true ∧ t.dec = .idle ∧
  t.part = [] ∧ t.p = 0 ∧ t.hist = s.hist ∧ sameEncoder s t ∧ t.snk = s.snk ∧ t.inputs = s.inputs ∧ t.draws = s.draws + 1

/-- The id an id field spells (R62). -/
def idValue : IdField → Nat
  | .b1 cs => cs.toNat
  | .b2 i => i.toNat + 64
  | .b3 i => i.toNat + 64

/-! ### Encoding, in arithmetic on numbers -/

/-- The basic-header bytes of format `f` and id `id` (R100 to R103). -/
def basicBytes (f id : Nat) : List Nat :=
  if id < 64 then [f * 64 + id]
  else if id < 320 then [f * 64, id - 64]
  else [f * 64 + 1, (id - 64) / 256, (id - 64) % 256]

/-- A number below 2^24, most significant byte first. -/
def bytes24 (v : Nat) : List Nat := [v / 65536, v / 256 % 256, v % 256]

/-- A number below 2^32, most significant byte first. -/
def bytes32 (v : Nat) : List Nat := [v / 16777216, v / 65536 % 256, v / 256 % 256, v % 256]

/-- The message-header bytes of format `f` (R121 to R124): time fields clamped to 16,777,215, the stream id least significant
byte first. -/
def messageBytes (f : Nat) (m : MessageHeader) : List Nat :=
  if f = 0 then
    bytes24 (min m.timestamp.toNat 16777215) ++ bytes24 m.messageLength.toNat ++ [m.messageTypeID.toNat] ++
      (bytes32 m.messageStreamID.toNat).reverse
  else if f = 1 then
    bytes24 (min m.timestampDelta.toNat 16777215) ++ bytes24 m.messageLength.toNat ++ [m.messageTypeID.toNat]
  else if f = 2 then bytes24 (min m.timestampDelta.toNat 16777215)
  else []

/-- The suffix the encoder appends (R140, R141): the timestamp wins, and there is at most one. -/
def extBytes (m : MessageHeader) : List Nat :=
  if 16777215 ≤ m.timestamp.toNat then bytes32 m.timestamp.toNat
  else if 16777215 ≤ m.timestampDelta.toNat then bytes32 m.timestampDelta.toNat
  else []

/-- The message header a DEC returns for what ENC made of `h`, where `e` is the entry of the id (R162). -/
def decodedMessage (h : EncOperand) (e : ChunkHeader) : MessageHeader :=
  if h.format = 0 then
    ⟨BitVec.ofNat 32 (min h.message.timestamp.toNat 16777215), 0, h.message.messageLength, h.message.messageTypeID,
      h.message.messageStreamID⟩
  else if h.format = 1 then
    ⟨0, BitVec.ofNat 32 (min h.message.timestampDelta.toNat 16777215), h.message.messageLength, h.message.messageTypeID, 0⟩
  else if h.format = 2 then ⟨0, BitVec.ofNat 32 (min h.message.timestampDelta.toNat 16777215), 0, 0, 0⟩
  else e.message

end Sys2Proof.Claims

open Sys2Proof Sys2Proof.Machine Sys2Proof.Claims

/-! ### Reset -/

/-- R230: RESET runs in every state; it empties HIST, sets `cur` to 0, abandons an operation in progress without a result,
leaves the ports ready and does nothing to the byte source. The same holds of the state right after reset. -/
def Obligations.ResetStartsAConnection : Prop :=
  (∀ s : State, ∃ t, exec .reset s = .next t ∧ t.hist = [] ∧ t.cur = 0 ∧ t.out = [] ∧ t.dec = .idle ∧ t.dhValid = false ∧
    t.part = [] ∧ t.p = 0 ∧ t.ready = true ∧ t.src = s.src) ∧
  State.reset.hist = [] ∧ State.reset.cur = 0 ∧ State.reset.out = [] ∧ State.reset.ready = true

/-- What RESET does beyond R230 is the model's choice (entries 3 and 10): EH, DH and the encoder's status go to the values
they have after reset, and the sink, the inputs and the count of free values stay. -/
def Obligations.ResetLeavesWhatIsOutside : Prop :=
  ∀ s : State, ∃ t, exec .reset s = .next t ∧ t.eh = State.reset.eh ∧ t.encStatus = State.reset.encStatus ∧
    t.dh = State.reset.dh ∧ t.snk = s.snk ∧ t.inputs = s.inputs ∧ t.draws = s.draws

/-- The state after reset meets the invariant. -/
def Obligations.ResetMeetsInvariant : Prop := State.reset.Inv

/-! ### The invariant -/

/-- Every step keeps the invariant: a presented result is a success with an id its basic header can spell, the zero fields of
its format, `ext_v` exactly when a time field is saturated and `consumed` the sum of the part lengths, or a failure with one
of DEC's errors and a `fault_pos` of at most 17; a DEC in progress holds exactly the bytes it has consumed. -/
def Obligations.StepKeepsInvariant : Prop := ∀ s t : State, s.Inv → step s = .next t → t.Inv

/-! ### Encoding -/

/-- Decoding the bytes of a well-formed wire instruction, whatever follows them, gives that instruction back and leaves what
follows. -/
def Obligations.DecodeOfEncode : Prop :=
  ∀ (i : Instr) (bs rest : List Byte), i.wf = true → encode i = some bs → decode i.part (bs ++ rest) = .ok (i, rest)

/-- Whatever the decoder reads is well-formed, and the bytes it read are the bytes that instruction encodes to. -/
def Obligations.EncodeOfDecode : Prop :=
  ∀ (k : Part) (bs rest : List Byte) (i : Instr), decode k bs = .ok (i, rest) →
    i.wf = true ∧ i.part = k ∧ ∃ pre, encode i = some pre ∧ bs = pre ++ rest

/-- R75 (the spec derives its last sentence from R61): every value of byte 0 is selected by exactly one row of the form
table, and the form the decoder reads is the one of a row that selects byte 0, with that row's length. -/
def Obligations.FormTableSelectsOneForm : Prop :=
  (∀ b0 : Byte, (formRows.filter fun r => r.selects b0).length = 1) ∧
  (∀ (b0 : Byte) (bs rest : List Byte) (i : Instr), decodeHeader (b0 :: bs) = .ok (i, rest) →
    ∃ r ∈ formRows, r.selects b0 = true ∧ i.form = some r.form ∧ (b0 :: bs).length = r.length + rest.length)

/-- R112, which the spec derives from R100 to R109: the basic header of every format and every id from 2 to 65,599 is read
back as that format and id, with no byte beyond it; and a canonical basic header is what the encoder makes of what it spells.
-/
def Obligations.BasicHeaderRoundTrip : Prop :=
  (∀ (f : BitVec 2) (id : U32) (rest : List Byte), 2 ≤ id.toNat → id.toNat ≤ 65599 →
    ∃ b0 bs fld, bhEnc f id = b0 :: bs ∧ fmtOf b0 = f ∧ decodeId b0 (bs ++ rest) = .ok (fld, rest) ∧
      idValue fld = id.toNat ∧ widthOf b0 = (bhEnc f id).length) ∧
  (∀ (b0 : Byte) (bs rest : List Byte) (fld : IdField), decodeId b0 bs = .ok (fld, rest) →
    (∀ i, fld = .b3 i → 256 ≤ i.toNat) →
    bhEnc (fmtOf b0) (BitVec.ofNat 32 (idValue fld)) ++ rest = b0 :: bs)

/-- R111: byte 0 = 0xFF is the 1-byte form of format 3 with sub-stream id 63; with no entry for 63 a DEC that reads it ends
with `NoPreviousChunk` and `fault_pos` 1. That `DH.io` is then the cleared value is the model's entry 17, and the count of
free values its entry 4; neither is in R111. -/
def Obligations.FirstByte255IsOrdinary : Prop :=
  (∀ bs : List Byte, decodeHeader (0xFF :: bs) = .ok (.ch3b1 63, bs)) ∧
  (∀ (s : State) (rest : List Answer), s.dec = .reading .header → s.part = [] → s.p = 0 →
    s.src = .byte 0xFF :: rest → histLookup s.hist 63 = none →
    ∃ t, step s = .next t ∧ decFailed s t .noPreviousChunk Config.IoErr.zero 1)

/-- Words written out bit by bit from the patterns of the forms decode to the instructions they stand for. -/
def Obligations.PatternsDecode : Prop :=
  decodeHeader [0b00000011, 0x01, 0x02, 0x03, 0x00, 0x00, 0x97, 0x14, 0x04, 0x03, 0x02, 0x01]
    = .ok (.ch0b1 3 0x010203 0x000097 0x14 0x01020304, []) ∧
  decodeHeader [0b01000000, 0x24, 0x00, 0x00, 0x28, 0x00, 0x01, 0x00, 0x09]
    = .ok (.ch1b2 0x24 0x000028 0x000100 0x09, []) ∧
  decodeHeader [0b10000001, 0x03, 0xA8, 0x12, 0x34, 0x56] = .ok (.ch2b3 0x03A8 0x123456, []) ∧
  decodeHeader [0b11000000, 0x24] = .ok (.ch3b2 0x24, []) ∧
  decodeSuffix [0x01, 0x31, 0x2D, 0x00] = .ok (.xts 20000000, [])

/-! ### A step runs what it reads -/

/-- A step of a machine that is reading part `k` takes exactly the bytes that, behind those it holds, spell an instruction,
moves `cur` and `p` by their number, and is `exec` of that instruction; and where the decoder is idle or has to wait, a step
is `exec` of the operation the host issues next. -/
def Obligations.StepRunsTheInstructionRead : Prop :=
  (∀ (s : State) (k : Part) (new : List Byte) (rest : List Answer) (i : Instr),
    s.dec = .reading k → new ≠ [] → s.src = new.map Answer.byte ++ rest → decode k (s.part ++ new) = .ok (i, []) →
    step s = exec i { s with part := s.part ++ new, src := rest, cur := s.cur + new.length, p := s.p + new.length }) ∧
  (∀ (s : State) (o : HostOp) (rest : List Input), s.dec = .idle ∨ s.src = [] → s.inputs = .op o :: rest →
    step s = exec o.toInstr { s with inputs := rest })

/-- R251: while the bytes held and those delivered do not spell the part, the decoder keeps them and waits; with no answer
and nothing else happening the step changes nothing; the source's next answer becomes known when it makes it. -/
def Obligations.DecoderWaits : Prop :=
  (∀ (s : State) (k : Part) (new : List Byte) (e : DecodeError), s.dec = .reading k → new ≠ [] →
    s.src = new.map Answer.byte → decode k (s.part ++ new) = .error e →
    step s = .next { s with part := s.part ++ new, src := [], cur := s.cur + new.length, p := s.p + new.length }) ∧
  (∀ (s : State) (k : Part), s.dec = .reading k → s.src = [] → s.inputs = [] → step s = .next s) ∧
  (∀ (s : State) (a : Answer) (rest : List Input), s.dec = .idle ∨ s.src = [] → s.inputs = .answer a :: rest →
    step s = .next { s with inputs := rest, src := s.src ++ [a] })

/-- Between decodes: the host takes a byte and `cur` moves by one (R27, R41); an answer that is no byte is taken and moves it
by nothing; the host writes the encoder's output to the sink in order (R42). That these acts of the host are steps at all is
the model's choice (entry 14: R4 leaves payload handling out), and so is that an answer that is no byte is used up (entry
15). What is left out here, a read not answered yet and a write beside a DEC, is `HostReadWaitsAndHostWritesBesideDec`. -/
def Obligations.HostReadsAndWrites : Prop :=
  (∀ (s : State) (b : Byte) (src : List Answer) (rest : List Input), s.dec = .idle → s.inputs = .hostRead :: rest →
    s.src = .byte b :: src → step s = .next { s with inputs := rest, src := src, cur := s.cur + 1 }) ∧
  (∀ (s : State) (a : Answer) (src : List Answer) (rest : List Input), s.dec = .idle → s.inputs = .hostRead :: rest →
    s.src = a :: src → (∀ b, a ≠ .byte b) → step s = .next { s with inputs := rest, src := src }) ∧
  (∀ (s : State) (rest : List Input), s.dec = .idle → s.inputs = .hostSend :: rest →
    step s = .next { s with inputs := rest, snk := s.snk ++ s.out })

/-! ### The wire forms -/

/-- Format 0, all three widths: the four fields on the wire, `timestampDelta` 0, id as its width spells it. -/
def Obligations.Format0FormsDecode : Prop :=
  ∀ (s : State) (t l : U24) (y : Byte) (m : U32),
    (∀ cs : BitVec 6, ∃ u, exec (.ch0b1 cs t l y m) s = .next u ∧
      formDecoded s u 0 cs.toNat ⟨t.setWidth 32, 0, l, y, m⟩ 1 11) ∧
    (∀ i : BitVec 8, ∃ u, exec (.ch0b2 i t l y m) s = .next u ∧
      formDecoded s u 0 (i.toNat + 64) ⟨t.setWidth 32, 0, l, y, m⟩ 2 11) ∧
    (∀ i : BitVec 16, ∃ u, exec (.ch0b3 i t l y m) s = .next u ∧
      formDecoded s u 0 (i.toNat + 64) ⟨t.setWidth 32, 0, l, y, m⟩ 3 11)

/-- Format 1, all three widths: delta, length and type from the wire, `timestamp` and `messageStreamID` 0. -/
def Obligations.Format1FormsDecode : Prop :=
  ∀ (s : State) (d l : U24) (y : Byte),
    (∀ cs : BitVec 6, ∃ u, exec (.ch1b1 cs d l y) s = .next u ∧
      formDecoded s u 1 cs.toNat ⟨0, d.setWidth 32, l, y, 0⟩ 1 7) ∧
    (∀ i : BitVec 8, ∃ u, exec (.ch1b2 i d l y) s = .next u ∧
      formDecoded s u 1 (i.toNat + 64) ⟨0, d.setWidth 32, l, y, 0⟩ 2 7) ∧
    (∀ i : BitVec 16, ∃ u, exec (.ch1b3 i d l y) s = .next u ∧
      formDecoded s u 1 (i.toNat + 64) ⟨0, d.setWidth 32, l, y, 0⟩ 3 7)

/-- Format 2, all three widths: the delta from the wire, every other message field 0. -/
def Obligations.Format2FormsDecode : Prop :=
  ∀ (s : State) (d : U24),
    (∀ cs : BitVec 6, ∃ u, exec (.ch2b1 cs d) s = .next u ∧
      formDecoded s u 2 cs.toNat ⟨0, d.setWidth 32, 0, 0, 0⟩ 1 3) ∧
    (∀ i : BitVec 8, ∃ u, exec (.ch2b2 i d) s = .next u ∧
      formDecoded s u 2 (i.toNat + 64) ⟨0, d.setWidth 32, 0, 0, 0⟩ 2 3) ∧
    (∀ i : BitVec 16, ∃ u, exec (.ch2b3 i d) s = .next u ∧
      formDecoded s u 2 (i.toNat + 64) ⟨0, d.setWidth 32, 0, 0, 0⟩ 3 3)

/-- Format 3 with an entry for the id, all three widths: the five message fields are a copy of that entry's; format and id
are the wire's. -/
def Obligations.Format3FormsCopyTheEntry : Prop :=
  ∀ (s : State) (e : ChunkHeader),
    (∀ cs : BitVec 6, histLookup s.hist (cs.setWidth 32) = some e →
      ∃ u, exec (.ch3b1 cs) s = .next u ∧ formDecoded s u 3 cs.toNat e.message 1 0) ∧
    (∀ i : BitVec 8, histLookup s.hist (i.setWidth 32 + 64) = some e →
      ∃ u, exec (.ch3b2 i) s = .next u ∧ formDecoded s u 3 (i.toNat + 64) e.message 2 0) ∧
    (∀ i : BitVec 16, histLookup s.hist (i.setWidth 32 + 64) = some e →
      ∃ u, exec (.ch3b3 i) s = .next u ∧ formDecoded s u 3 (i.toNat + 64) e.message 3 0)

/-- Format 3 without an entry for the id, all three widths: `NoPreviousChunk`, `fault_pos` the bytes this DEC has consumed
(the width of the basic header, in a DEC that has read just that), no byte taken (R131). The model's own: that `DH.io` is
then the cleared value (entry 17), the count of free values (entry 4), and that `exec` does so in any phase (entry 16). -/
def Obligations.Format3FormsWithoutEntryFail : Prop :=
  ∀ s : State,
    (∀ cs : BitVec 6, histLookup s.hist (cs.setWidth 32) = none →
      ∃ u, exec (.ch3b1 cs) s = .next u ∧ decFailed s u .noPreviousChunk Config.IoErr.zero s.p ∧ u.dh.bhLen = 1 ∧
        u.cur = s.cur ∧ u.src = s.src) ∧
    (∀ i : BitVec 8, histLookup s.hist (i.setWidth 32 + 64) = none →
      ∃ u, exec (.ch3b2 i) s = .next u ∧ decFailed s u .noPreviousChunk Config.IoErr.zero s.p ∧ u.dh.bhLen = 2 ∧
        u.cur = s.cur ∧ u.src = s.src) ∧
    (∀ i : BitVec 16, histLookup s.hist (i.setWidth 32 + 64) = none →
      ∃ u, exec (.ch3b3 i) s = .next u ∧ decFailed s u .noPreviousChunk Config.IoErr.zero s.p ∧ u.dh.bhLen = 3 ∧
        u.cur = s.cur ∧ u.src = s.src)

/-- The suffix is recorded in `ext` with `ext_v` set, whatever its value; no other header field changes, the time fields
included; the DEC ends with status OK. -/
def Obligations.SuffixIsRecorded : Prop :=
  ∀ (s : State) (e : U32), ∃ u, exec (.xts e) s = .next u ∧
    u.dh.header.ext = e ∧ u.dh.header.extV = true ∧ u.dh.xtsLen.toNat = 4 ∧
    u.dh.header.basic = s.dh.header.basic ∧ u.dh.header.message = s.dh.header.message ∧
    u.dh.bhLen = s.dh.bhLen ∧ u.dh.mhLen = s.dh.mhLen ∧
    u.dh.consumed.toNat = s.dh.bhLen.toNat + s.dh.mhLen.toNat + 4 ∧
    u.dh.status = .ok ∧ u.dhValid = true ∧ u.dec = .idle ∧ u.part = [] ∧ u.p = 0 ∧
    sameEncoder s u ∧ sameAgents s u ∧ u.cur = s.cur ∧ u.hist = s.hist ∧ u.draws = s.draws

/-! ### DEC as a whole -/

/-- R153: a DEC issued to an idle decoder, run until the decoder is idle again or has to wait, comes out as the pseudocode of
the whole operation, byte request by byte request, says: the same header, part lengths and count, the same error, failure
value and `fault_pos`, the same bytes left to the source; `cur` moves by what was consumed and HIST is unchanged.
The model's own: that `DH.io` is the cleared value beside `EndOfStream` and `NoPreviousChunk` (entry 17), and that two steps
are enough (entry 8). -/
def Obligations.DecRunsThePseudocode : Prop :=
  ∀ s : State, s.dec = .idle → ∃ u t, exec .dec s = .next u ∧ settle 2 u = .next t ∧ t.hist = s.hist ∧
    sameEncoder s t ∧ t.inputs = s.inputs ∧ t.snk = s.snk ∧
    match wholeDec s.hist s.src with
    | .ok h bh mh xts rest =>
      t.dec = .idle ∧ t.dhValid = true ∧ t.dh.status = .ok ∧ t.dh.header = h ∧ t.dh.bhLen.toNat = bh ∧
      t.dh.mhLen.toNat = mh ∧ t.dh.xtsLen.toNat = xts ∧ t.dh.consumed.toNat = bh + mh + xts ∧ t.dh.faultPos = 0 ∧
      t.src = rest ∧ t.cur = s.cur + (bh + mh + xts)
    | .error k io p rest =>
      t.dec = .idle ∧ t.dhValid = true ∧ t.dh.status = k ∧ t.dh.io = io ∧ t.dh.faultPos.toNat = p ∧
      t.src = rest ∧ t.cur = s.cur + p
    | .waiting p => t.dec ≠ .idle ∧ t.dhValid = false ∧ t.p = p ∧ t.src = [] ∧ t.cur = s.cur + p

/-- R133, which the spec derives from R106 and R120: no history and no byte source makes a DEC end with `UnknownFormat`. -/
def Obligations.DecNeverReportsUnknownFormat : Prop :=
  ∀ (hist : List ChunkHeader) (src : List Answer) (io : Config.IoErr) (p : Nat) (rest : List Answer),
    wholeDec hist src ≠ .error .unknownFormat io p rest

/-- R72: given at least 18 bytes, whatever they are, a DEC succeeds or finds no entry for a format-3 header.
That the failure value beside `NoPreviousChunk` is then the cleared one is the model's entry 17; it is not in R72. -/
def Obligations.NoByteStringIsIllegal : Prop :=
  ∀ (hist : List ChunkHeader) (b0 : Byte) (bs : List Byte) (rest : List Answer), 17 ≤ bs.length →
    (∃ h bh mh xts left, wholeDec hist ((b0 :: bs).map Answer.byte ++ rest) = .ok h bh mh xts left) ∨
    (fmtOf b0 = 3 ∧ ∃ p left, 1 ≤ p ∧ p ≤ 3 ∧
      wholeDec hist ((b0 :: bs).map Answer.byte ++ rest) = .error .noPreviousChunk Config.IoErr.zero p left)

/-- A decoder that has answers to take is never refused a step: it goes on, ends or waits. -/
def Obligations.DecoderIsNeverRefused : Prop :=
  ∀ (s : State) (k : Part), s.dec = .reading k → s.src ≠ [] → ∃ t, step s = .next t

/-- R210, R204, R205: an `End` or `Fail e` in place of a byte the part still needs ends the DEC with `EndOfStream` or
`IoFailure`, the failure value unchanged; the bytes delivered before stay consumed, the answer that was no byte consumed
nothing, and from a state of the invariant `fault_pos` is the number of bytes this DEC consumed, at most 17. The model's own:
that `DH.io` is the cleared value beside `EndOfStream` (entry 17), and the count of free values (entry 4). -/
def Obligations.BrokenStreamEndsTheDec : Prop :=
  ∀ (s : State) (k : Part) (new : List Byte) (rest : List Answer) (e : DecodeError), s.dec = .reading k →
    decode k (s.part ++ new) = .error e →
    (s.src = new.map Answer.byte ++ Answer.ended :: rest →
      ∃ t, step s = .next t ∧ decFailed s t .endOfStream Config.IoErr.zero (s.p + new.length) ∧
        t.src = rest ∧ t.cur = s.cur + new.length ∧
        (s.Inv → t.dh.faultPos.toNat = s.p + new.length ∧ s.p + new.length ≤ 17)) ∧
    (∀ x : Config.IoErr, s.src = new.map Answer.byte ++ Answer.failed x :: rest →
      ∃ t, step s = .next t ∧ decFailed s t .ioFailure x (s.p + new.length) ∧
        t.src = rest ∧ t.cur = s.cur + new.length ∧
        (s.Inv → t.dh.faultPos.toNat = s.p + new.length ∧ s.p + new.length ≤ 17))

/-- R131: the bytes of a format-3 basic header whose id has no entry end a DEC that has just begun with `NoPreviousChunk` and
`fault_pos` the width of the basic header; they have been consumed and nothing else, whatever the source answers next (even
`End`, R208). The model's own: that `DH.io` is then the cleared value (entry 17), and the count of free values (entry 4). -/
def Obligations.MissingEntryEndsTheDec : Prop :=
  ∀ (s : State) (f : IdField) (bs : List Byte) (rest : List Answer), s.dec = .reading .header → s.part = [] → s.p = 0 →
    (mkCh3 f).wf = true → encode (mkCh3 f) = some bs → s.src = bs.map Answer.byte ++ rest →
    histLookup s.hist (BitVec.ofNat 32 (idValue f)) = none →
    ∃ t, step s = .next t ∧ decFailed s t .noPreviousChunk Config.IoErr.zero bs.length ∧ bs.length ≤ 3 ∧
      t.dh.bhLen.toNat = bs.length ∧ t.cur = s.cur + bs.length ∧ t.src = rest

/-- R160, which the spec derives from R130, R132, R156 and R157: the outcome of a DEC depends on the history only through the
message fields of the newest entry of each id, and for a header of format 0, 1 or 2 not at all. -/
def Obligations.HistoryIsUsedByFormat3Only : Prop :=
  (∀ (h1 h2 : List ChunkHeader) (src : List Answer),
    (∀ id : U32, 2 ≤ id.toNat → id.toNat ≤ 65599 →
      (histLookup h1 id).map ChunkHeader.message = (histLookup h2 id).map ChunkHeader.message) →
    wholeDec h1 src = wholeDec h2 src) ∧
  (∀ (h1 h2 : List ChunkHeader) (b0 : Byte) (src : List Answer), fmtOf b0 ≠ 3 →
    wholeDec h1 (.byte b0 :: src) = wholeDec h2 (.byte b0 :: src))

/-- R162, which the spec derives from the rules of ENC and DEC, and the table of R142: what a DEC returns for what ENC
produced, for every format and every id from 2 to 65,599. After the form, DH holds format, id and the message header of the
table, and `cur` has moved by the length of the two parts. The decoder then reads a suffix exactly when a returned time field
is saturated. Where the encoder appended one and the decoder reads it, `ext` is the value appended and all of `out` is
consumed; where neither is, all of `out` is consumed; where the encoder appended one and the decoder reads none, those 4
bytes are left in front of the payload. -/
def Obligations.DecOfEnc : Prop :=
  ∀ (s : State) (h : EncOperand) (e : ChunkHeader) (rest : List Answer), s.dec = .idle → h.format.toNat ≤ 3 →
    2 ≤ h.subStreamID.toNat → h.subStreamID.toNat ≤ 65599 →
    (h.format = 3 → histLookup s.hist h.subStreamID = some e) →
    ∃ w, exec (.enc h) s = .next w ∧ w.encStatus = .ok ∧
    ∃ u t, exec .dec { w with src := w.out.map Answer.byte ++ rest } = .next u ∧ settle 1 u = .next t ∧
      t.dh.header.basic.format.toNat = h.format.toNat ∧ t.dh.header.basic.subStreamID = h.subStreamID ∧
      t.dh.header.message = decodedMessage h e ∧
      t.cur = s.cur + t.dh.bhLen.toNat + t.dh.mhLen.toNat ∧
      (t.dec = .reading .suffix ↔ saturated (decodedMessage h e)) ∧
      (saturated (decodedMessage h e) → ∀ x, encExt h.message = some x →
        ∃ v, settle 2 u = .next v ∧ v.dec = .idle ∧ v.dhValid = true ∧ v.dh.status = .ok ∧ v.dh.header.ext = x ∧
          v.dh.header.extV = true ∧ v.dh.header.basic = t.dh.header.basic ∧ v.dh.header.message = decodedMessage h e ∧
          v.dh.consumed.toNat = w.out.length ∧ v.cur = s.cur + w.out.length ∧ v.src = rest) ∧
      (¬ saturated (decodedMessage h e) → t.dec = .idle ∧ t.dhValid = true ∧ t.dh.status = .ok ∧
        t.dh.header.extV = false ∧ t.dh.header.ext = 0 ∧
        (encExt h.message = none →
          t.dh.consumed.toNat = w.out.length ∧ t.cur = s.cur + w.out.length ∧ t.src = rest) ∧
        (∀ x, encExt h.message = some x → t.dh.consumed.toNat + 4 = w.out.length ∧
          t.src = (be32 x).map Answer.byte ++ rest))

/-- R163, which the spec derives from R162: a normal header, encoded and decoded again, comes back unchanged, with `consumed`
the length of its bytes and nothing else taken from the source. -/
def Obligations.NormalHeadersRoundTrip : Prop :=
  ∀ (s : State) (h : ChunkHeader) (rest : List Answer), s.dec = .idle → h.normal s.hist →
    ∃ w, exec (.enc h.operand) s = .next w ∧ w.encStatus = .ok ∧
    ∃ u t, exec .dec { w with src := w.out.map Answer.byte ++ rest } = .next u ∧ settle 2 u = .next t ∧
      t.dec = .idle ∧ t.dhValid = true ∧ t.dh.status = .ok ∧ t.dh.header = h ∧
      t.dh.consumed.toNat = w.out.length ∧ t.src = rest ∧ t.cur = s.cur + w.out.length

/-! ### ENC -/

/-- R207, R209: an id of 65,600 or more gives `InvalidSubStreamID`, whatever the format; otherwise a format above 3 gives
`UnknownFormat`. No byte is produced and HIST, `cur` and DH are untouched. -/
def Obligations.EncErrors : Prop :=
  ∀ (s : State) (h : EncOperand),
    (65600 ≤ h.subStreamID.toNat → ∃ u, exec (.enc h) s = .next u ∧ u.encStatus = .invalidSubStreamID ∧ u.out = [] ∧
      u.outLen = 0 ∧ u.eh = h ∧ sameDecoder s u ∧ sameAgents s u ∧ u.cur = s.cur ∧ u.hist = s.hist) ∧
    (h.subStreamID.toNat < 65600 → 3 < h.format.toNat → ∃ u, exec (.enc h) s = .next u ∧
      u.encStatus = .unknownFormat ∧ u.out = [] ∧ u.outLen = 0 ∧ u.eh = h ∧ sameDecoder s u ∧ sameAgents s u ∧
      u.cur = s.cur ∧ u.hist = s.hist)

/-- The bytes ENC makes, as numbers: the minimal-width basic header, the message header of the format with clamped time
fields and a little-endian stream id, and at most one suffix, the timestamp's before the delta's, whatever the format. Ids 0
and 1 take the 1-byte form. -/
def Obligations.EncWritesTheseBytes : Prop :=
  ∀ (s : State) (h : EncOperand), h.subStreamID.toNat ≤ 65599 → h.format.toNat ≤ 3 →
    ∃ u, exec (.enc h) s = .next u ∧ u.encStatus = .ok ∧ u.eh = h ∧
      u.out.map BitVec.toNat =
        basicBytes h.format.toNat h.subStreamID.toNat ++ messageBytes h.format.toNat h.message ++ extBytes h.message ∧
      sameDecoder s u ∧ sameAgents s u ∧ u.cur = s.cur ∧ u.hist = s.hist

/-- What ENC makes for an id from 2 to 65,599 is one of the twelve forms, the one of the operand's format and of the id's
range, well-formed, followed by the suffix where it appends one. -/
def Obligations.EncMakesAForm : Prop :=
  ∀ (s : State) (h : EncOperand), 2 ≤ h.subStreamID.toNat → h.subStreamID.toNat ≤ 65599 → h.format.toNat ≤ 3 →
    ∃ u i bs, exec (.enc h) s = .next u ∧ encode i = some bs ∧ i.wf = true ∧
      i.form = some ⟨h.format.setWidth 2,
        if h.subStreamID.toNat < 64 then 1 else if h.subStreamID.toNat < 320 then 2 else 3⟩ ∧
      (encExt h.message = none → u.out = bs) ∧
      (∀ x, encExt h.message = some x → ∃ xs, encode (.xts x) = some xs ∧ u.out = bs ++ xs)

/-- R69, which the spec derives from R60 and R62 to R67: the length of a chunk header that ENC makes is one of the 24 sums, 1
to 18 bytes. -/
def Obligations.EncLengths : Prop :=
  ∀ (h : EncOperand) (bs : List Byte), encHeader h = .ok bs →
    bs.length =
      (if h.subStreamID.toNat < 64 then 1 else if h.subStreamID.toNat < 320 then 2 else 3) +
      (if h.format.toNat = 0 then 11 else if h.format.toNat = 1 then 7 else if h.format.toNat = 2 then 3 else 0) +
      (if 16777215 ≤ h.message.timestamp.toNat ∨ 16777215 ≤ h.message.timestampDelta.toNat then 4 else 0) ∧
    1 ≤ bs.length ∧ bs.length ≤ 18

/-- R147: the encoder never reads `EH.ext_v` or `EH.ext`. -/
def Obligations.EncIgnoresExt : Prop :=
  ∀ (s : State) (h : EncOperand) (v : Bool) (x : U32), ∃ t u, exec (.enc h) s = .next t ∧
    exec (.enc { h with extV := v, ext := x }) s = .next u ∧ u.out = t.out ∧ u.encStatus = t.encStatus

/-- R53: ENC and a step of the decoder may come in either order, with the same result. -/
def Obligations.EncBesideDec : Prop :=
  ∀ (s : State) (k : Part) (h : EncOperand), s.dec = .reading k → s.src ≠ [] →
    ∃ t u v, step s = .next t ∧ exec (.enc h) s = .next u ∧ step u = .next v ∧ exec (.enc h) t = .next v

/-! ### The ports -/

/-- R153 step 0: a DEC issued to an idle decoder clears DH and makes the decoder read a header; nothing else changes yet. -/
def Obligations.DecBegins : Prop :=
  ∀ s : State, s.dec = .idle → ∃ u, exec .dec s = .next u ∧ u.dh = DecResult.cleared ∧ u.dhValid = false ∧
    u.dec = .reading .header ∧ u.part = [] ∧ u.p = 0 ∧ sameEncoder s u ∧ sameAgents s u ∧ u.cur = s.cur ∧
    u.hist = s.hist ∧ u.draws = s.draws

/-- R158: HPUSH to an idle instance appends its operand as given, whatever its fields, and the operand hides every older
entry of its id, and only those, from a later lookup. -/
def Obligations.HpushAppends : Prop :=
  ∀ (s : State) (h : ChunkHeader), s.dec = .idle → ∃ u, exec (.hpush h) s = .next u ∧ u.hist = s.hist ++ [h] ∧
    (∀ id : U32, histLookup u.hist id = if id = h.basic.subStreamID then some h else histLookup s.hist id) ∧
    sameEncoder s u ∧ sameDecoder s u ∧ sameAgents s u ∧ u.cur = s.cur

/-- R159: HCLR to an idle instance empties HIST and leaves `cur` and all else. -/
def Obligations.HclrEmpties : Prop :=
  ∀ s : State, s.dec = .idle → ∃ u, exec .hclr s = .next u ∧ u.hist = [] ∧
    (∀ id : U32, histLookup u.hist id = none) ∧ sameEncoder s u ∧ sameDecoder s u ∧ sameAgents s u ∧ u.cur = s.cur

/-- R157: the lookup gives the newest entry of the id: it is in the table with that id, and no later one has it; it gives
none exactly when no entry has it. -/
def Obligations.LookupFindsTheNewest : Prop :=
  ∀ (hist : List ChunkHeader) (id : U32),
    (∀ e, histLookup hist id = some e ↔
      ∃ older newer, hist = older ++ e :: newer ∧ e.basic.subStreamID = id ∧ ∀ x ∈ newer, x.basic.subStreamID ≠ id) ∧
    (histLookup hist id = none ↔ ∀ x ∈ hist, x.basic.subStreamID ≠ id)

/-- R52: while a DEC is in progress the DEC port and the HIST port take no operation: DEC, HPUSH and HCLR have no step. -/
def Obligations.OverlapIsRefused : Prop :=
  ∀ (s : State) (k : Part), s.dec = .reading k →
    exec .dec s = .refused .decPortBusy ∧ (∀ h, exec (.hpush h) s = .refused .histPortBusy) ∧
    exec .hclr s = .refused .histPortBusy

/-- A step is refused in these cases and no other: the decoder waits for a byte and the host issues DEC, HPUSH or HCLR, or
reads a byte for itself. That the last is refused is the model's choice (entry 12). -/
def Obligations.StepIsRefusedOnlyForOverlap : Prop :=
  ∀ (s : State) (r : Refusal), step s = .refused r ↔
    (∃ k, s.dec = .reading k) ∧ s.src = [] ∧ ∃ x rest, s.inputs = x :: rest ∧
      ((x = .op .dec ∧ r = .decPortBusy) ∨ ((∃ h, x = .op (.hpush h)) ∧ r = .histPortBusy) ∨
       (x = .op .hclr ∧ r = .histPortBusy) ∨ (x = .hostRead ∧ r = .hostReadDuringDec))

/-! ### Rules of the whole machine -/

/-- R26, R156: a step changes HIST only by an HPUSH, an HCLR or a RESET that the host issues; no DEC changes it, and no
single entry is ever changed or removed. -/
def Obligations.OnlyTheHostChangesHist : Prop :=
  ∀ s t : State, step s = .next t →
    t.hist = s.hist ∨
    (∃ h rest, s.inputs = .op (.hpush h) :: rest ∧ t.hist = s.hist ++ [h]) ∨
    (∃ rest, (s.inputs = .op .hclr :: rest ∨ s.inputs = .op .reset :: rest) ∧ t.hist = [])

/-- R27, R41: a step is a RESET, which sets `cur` to 0 and takes nothing from the source, or it takes some answers from the
front of the source, in order, and `cur` moves by the number of bytes among them; only the last of them can be no byte. -/
def Obligations.CursorCountsDeliveredBytes : Prop :=
  ∀ s t : State, step s = .next t →
    ((∃ rest, s.inputs = .op .reset :: rest) ∧ t.cur = 0 ∧ t.src = s.src) ∨
    ∃ (bytes : List Byte) (stop left new : List Answer),
      s.src = bytes.map Answer.byte ++ stop ++ left ∧ t.src = left ++ new ∧ t.cur = s.cur + bytes.length ∧
      (stop = [] ∨ stop = [.ended] ∨ ∃ x, stop = [.failed x]) ∧
      (new = [] ∨ ∃ a rest, s.inputs = .answer a :: rest ∧ new = [a] ∧ bytes = [] ∧ stop = [])

/-- R200: the six statuses have the codes 0 to 5, all different, so 6 and 7 are never produced. -/
def Obligations.StatusCodes : Prop :=
  Status.code .ok = 0 ∧ Status.code .invalidSubStreamID = 1 ∧ Status.code .unknownFormat = 2 ∧
  Status.code .noPreviousChunk = 3 ∧ Status.code .endOfStream = 4 ∧ Status.code .ioFailure = 5 ∧
  ∀ k : Status, (Status.code k).toNat ≤ 5

/-- The host's acts that `HostReadsAndWrites` leaves out: a read between decodes that the source has not answered waits, and
a write beside a decoder that lacks a byte goes to the sink in order (R42) and leaves the DEC as it is. That these acts are
steps, and that a wait is a step that changes nothing, is the model's choice (entries 14 and 9). -/
def Obligations.HostReadWaitsAndHostWritesBesideDec : Prop :=
  (∀ (s : State) (rest : List Input), s.dec = .idle → s.inputs = .hostRead :: rest → s.src = [] → step s = .next s) ∧
  (∀ (s : State) (k : Part) (rest : List Input), s.dec = .reading k → s.src = [] → s.inputs = .hostSend :: rest →
    step s = .next { s with inputs := rest, snk := s.snk ++ s.out })
end

