-- ==== Sys2Proof/Laws/Bytes.lean ====
section
/-! SUPPORT. The laws of the byte helpers (`00_scope.md` rule R11) and of byte 0 (R61): a value is put together from the bytes
it was split into, and the bytes of a value put together are those bytes. -/

namespace Sys2Proof

theorem toNat_append8 {n : Nat} (a : BitVec n) (b : Byte) : (a ++ b).toNat = a.toNat * 256 + b.toNat := by
  rw [BitVec.toNat_append, ← Nat.shiftLeft_add_eq_or_of_lt b.isLt, Nat.shiftLeft_eq]

theorem toNat_append6 (a : BitVec 2) (b : BitVec 6) : (a ++ b).toNat = a.toNat * 64 + b.toNat := by
  rw [BitVec.toNat_append, ← Nat.shiftLeft_add_eq_or_of_lt b.isLt, Nat.shiftLeft_eq]

theorem ub16_toNat (a b : Byte) : (ub16 a b).toNat = a.toNat * 256 + b.toNat := toNat_append8 a b

theorem ub24_toNat (a b c : Byte) : (ub24 a b c).toNat = a.toNat * 65536 + b.toNat * 256 + c.toNat := by
  rw [ub24, toNat_append8, toNat_append8]; omega

theorem ub32_toNat (a b c d : Byte) :
    (ub32 a b c d).toNat = a.toNat * 16777216 + b.toNat * 65536 + c.toNat * 256 + d.toNat := by
  rw [ub32, toNat_append8, toNat_append8, toNat_append8]; omega

theorem ul32_toNat (a b c d : Byte) :
    (ul32 a b c d).toNat = d.toNat * 16777216 + c.toNat * 65536 + b.toNat * 256 + a.toNat := by
  rw [ul32, toNat_append8, toNat_append8, toNat_append8]; omega

theorem byte0_toNat (f : BitVec 2) (cs : BitVec 6) : (byte0 f cs).toNat = f.toNat * 64 + cs.toNat := toNat_append6 f cs

theorem extract_toNat {n : Nat} (v : BitVec n) (k : Nat) : (v.extractLsb' k 8).toNat = v.toNat / 2 ^ k % 256 := by
  simp [Nat.shiftRight_eq_div_pow]

theorem fmtOf_toNat (b : Byte) : (fmtOf b).toNat = b.toNat / 64 := by
  have := b.isLt
  simp [fmtOf, Nat.shiftRight_eq_div_pow]
  omega

theorem csOf_toNat (b : Byte) : (csOf b).toNat = b.toNat % 64 := by
  simp [csOf]

@[simp] theorem fmtOf_byte0 (f : BitVec 2) (cs : BitVec 6) : fmtOf (byte0 f cs) = f := by
  apply BitVec.eq_of_toNat_eq
  have := cs.isLt
  rw [fmtOf_toNat, byte0_toNat]; omega

@[simp] theorem csOf_byte0 (f : BitVec 2) (cs : BitVec 6) : csOf (byte0 f cs) = cs := by
  apply BitVec.eq_of_toNat_eq
  have := cs.isLt
  rw [csOf_toNat, byte0_toNat]; omega

@[simp] theorem byte0_fmt_cs (b : Byte) : byte0 (fmtOf b) (csOf b) = b := by
  apply BitVec.eq_of_toNat_eq
  rw [byte0_toNat, fmtOf_toNat, csOf_toNat]; omega

@[simp] theorem ub16_be16 (v : BitVec 16) : ub16 (v.extractLsb' 8 8) (v.extractLsb' 0 8) = v := by
  apply BitVec.eq_of_toNat_eq
  have := v.isLt
  rw [ub16_toNat, extract_toNat, extract_toNat]; omega

@[simp] theorem ub24_be24 (v : U24) :
    ub24 (v.extractLsb' 16 8) (v.extractLsb' 8 8) (v.extractLsb' 0 8) = v := by
  apply BitVec.eq_of_toNat_eq
  have := v.isLt
  rw [ub24_toNat, extract_toNat, extract_toNat, extract_toNat]; omega

@[simp] theorem ub32_be32 (v : U32) :
    ub32 (v.extractLsb' 24 8) (v.extractLsb' 16 8) (v.extractLsb' 8 8) (v.extractLsb' 0 8) = v := by
  apply BitVec.eq_of_toNat_eq
  have := v.isLt
  rw [ub32_toNat, extract_toNat, extract_toNat, extract_toNat, extract_toNat]; omega

@[simp] theorem ul32_le32 (v : U32) :
    ul32 (v.extractLsb' 0 8) (v.extractLsb' 8 8) (v.extractLsb' 16 8) (v.extractLsb' 24 8) = v := by
  apply BitVec.eq_of_toNat_eq
  have := v.isLt
  rw [ul32_toNat, extract_toNat, extract_toNat, extract_toNat, extract_toNat]; omega

@[simp] theorem be16_ub16 (a b : Byte) : be16 (ub16 a b) = [a, b] := by
  have ha := a.isLt
  have hb := b.isLt
  simp only [be16, List.cons.injEq, and_true]
  refine ⟨?_, ?_⟩ <;> apply BitVec.eq_of_toNat_eq <;> rw [extract_toNat, ub16_toNat] <;> omega

@[simp] theorem be24_ub24 (a b c : Byte) : be24 (ub24 a b c) = [a, b, c] := by
  have ha := a.isLt
  have hb := b.isLt
  have hc := c.isLt
  simp only [be24, List.cons.injEq, and_true]
  refine ⟨?_, ?_, ?_⟩ <;> apply BitVec.eq_of_toNat_eq <;> rw [extract_toNat, ub24_toNat] <;> omega

@[simp] theorem be32_ub32 (a b c d : Byte) : be32 (ub32 a b c d) = [a, b, c, d] := by
  have ha := a.isLt
  have hb := b.isLt
  have hc := c.isLt
  have hd := d.isLt
  simp only [be32, List.cons.injEq, and_true]
  refine ⟨?_, ?_, ?_, ?_⟩ <;> apply BitVec.eq_of_toNat_eq <;> rw [extract_toNat, ub32_toNat] <;> omega

@[simp] theorem le32_ul32 (a b c d : Byte) : le32 (ul32 a b c d) = [a, b, c, d] := by
  have ha := a.isLt
  have hb := b.isLt
  have hc := c.isLt
  have hd := d.isLt
  simp only [le32, List.cons.injEq, and_true]
  refine ⟨?_, ?_, ?_, ?_⟩ <;> apply BitVec.eq_of_toNat_eq <;> rw [extract_toNat, ul32_toNat] <;> omega

end Sys2Proof
end

