-- ==== Sys2Proof/Laws/Decode.lean ====
section
/-! SUPPORT. What the decoder can answer, once for each of its functions. -/

namespace Sys2Proof

/-- What `decodeId` can answer. -/
theorem decodeId_cases {b0 : Byte} {bs rest : List Byte} {id : IdField} (h : decodeId b0 bs = .ok (id, rest)) :
    (csOf b0 = Config.mark2 ∧ ∃ i, bs = i :: rest ∧ id = .b2 i) ∨
    (csOf b0 = Config.mark3 ∧ ∃ hi lo, bs = hi :: lo :: rest ∧ id = .b3 (ub16 hi lo)) ∨
    (csOf b0 ≠ Config.mark2 ∧ csOf b0 ≠ Config.mark3 ∧ bs = rest ∧ id = .b1 (csOf b0)) := by
  unfold decodeId at h
  split at h
  · rename_i h2
    split at h <;> simp_all
  · rename_i h2
    split at h
    · rename_i h3
      split at h <;> simp_all
    · simp_all

/-- What `decodeMessage` can answer. -/
theorem decodeMessage_cases {f : BitVec 2} {id : IdField} {bs rest : List Byte} {i : Instr}
    (h : decodeMessage f id bs = .ok (i, rest)) :
    (f = 0 ∧ ∃ t0 t1 t2 l0 l1 l2 y m0 m1 m2 m3,
      bs = t0 :: t1 :: t2 :: l0 :: l1 :: l2 :: y :: m0 :: m1 :: m2 :: m3 :: rest ∧
      i = mkCh0 (ub24 t0 t1 t2) (ub24 l0 l1 l2) y (ul32 m0 m1 m2 m3) id) ∨
    (f = 1 ∧ ∃ d0 d1 d2 l0 l1 l2 y, bs = d0 :: d1 :: d2 :: l0 :: l1 :: l2 :: y :: rest ∧
      i = mkCh1 (ub24 d0 d1 d2) (ub24 l0 l1 l2) y id) ∨
    (f = 2 ∧ ∃ d0 d1 d2, bs = d0 :: d1 :: d2 :: rest ∧ i = mkCh2 (ub24 d0 d1 d2) id) ∨
    (f = 3 ∧ bs = rest ∧ i = mkCh3 id) := by
  unfold decodeMessage at h
  split at h
  · split at h <;> simp_all
  · split at h
    · split at h <;> simp_all
    · split at h
      · split at h <;> simp_all
      · rename_i h0 h1 h2
        have h3 : f = 3 := by
          have := f.isLt
          have e0 : f.toNat ≠ 0 := fun e => h0 (BitVec.eq_of_toNat_eq e)
          have e1 : f.toNat ≠ 1 := fun e => h1 (BitVec.eq_of_toNat_eq e)
          have e2 : f.toNat ≠ 2 := fun e => h2 (BitVec.eq_of_toNat_eq e)
          apply BitVec.eq_of_toNat_eq
          show f.toNat = 3
          omega
        simp_all

/-- What `decodeHeader` can answer. -/
theorem decodeHeader_cases {bs rest : List Byte} {i : Instr} (h : decodeHeader bs = .ok (i, rest)) :
    ∃ b0 bs' id mid, bs = b0 :: bs' ∧ decodeId b0 bs' = .ok (id, mid) ∧ decodeMessage (fmtOf b0) id mid = .ok (i, rest) := by
  cases bs with
  | nil => simp [decodeHeader] at h
  | cons b0 bs' =>
    simp only [decodeHeader] at h
    split at h
    · rename_i id mid heq
      exact ⟨b0, bs', id, mid, rfl, heq, h⟩
    · simp at h

/-- What `decodeSuffix` can answer. -/
theorem decodeSuffix_cases {bs rest : List Byte} {i : Instr} (h : decodeSuffix bs = .ok (i, rest)) :
    ∃ e0 e1 e2 e3, bs = e0 :: e1 :: e2 :: e3 :: rest ∧ i = .xts (ub32 e0 e1 e2 e3) := by
  unfold decodeSuffix at h
  split at h <;> simp_all

theorem decodeId_append {b0 : Byte} {bs rest : List Byte} {id : IdField} (more : List Byte)
    (h : decodeId b0 bs = .ok (id, rest)) : decodeId b0 (bs ++ more) = .ok (id, rest ++ more) := by
  rcases decodeId_cases h with ⟨h2, i, rfl, rfl⟩ | ⟨h3, hi, lo, rfl, rfl⟩ | ⟨h2, h3, rfl, rfl⟩
  · simp [decodeId, h2]
  · simp [decodeId, h3, Config.mark2, Config.mark3]
  · simp [decodeId, h2, h3]

theorem decodeMessage_append {f : BitVec 2} {id : IdField} {bs rest : List Byte} {i : Instr} (more : List Byte)
    (h : decodeMessage f id bs = .ok (i, rest)) : decodeMessage f id (bs ++ more) = .ok (i, rest ++ more) := by
  rcases decodeMessage_cases h with ⟨rfl, _, _, _, _, _, _, _, _, _, _, _, rfl, rfl⟩ | ⟨rfl, _, _, _, _, _, _, _, rfl, rfl⟩ |
    ⟨rfl, _, _, _, rfl, rfl⟩ | ⟨rfl, rfl, rfl⟩ <;> simp [decodeMessage]

/-- Bytes behind an instruction do not change how it is read (R47). -/
theorem decode_append {k : Part} {bs rest : List Byte} {i : Instr} (more : List Byte) (h : decode k bs = .ok (i, rest)) :
    decode k (bs ++ more) = .ok (i, rest ++ more) := by
  cases k with
  | header =>
    obtain ⟨b0, bs', id, mid, rfl, h1, h2⟩ := decodeHeader_cases h
    simp [decode, decodeHeader, decodeId_append more h1, decodeMessage_append more h2]
  | suffix =>
    obtain ⟨e0, e1, e2, e3, rfl, rfl⟩ := decodeSuffix_cases h
    simp [decode, decodeSuffix]

/-- A form is never read from the suffix, nor the suffix as a form. -/
theorem decode_part {k : Part} {bs rest : List Byte} {i : Instr} (h : decode k bs = .ok (i, rest)) : i.part = k := by
  cases k with
  | header =>
    obtain ⟨b0, bs', id, mid, rfl, -, h2⟩ := decodeHeader_cases h
    rcases decodeMessage_cases h2 with ⟨-, _, _, _, _, _, _, _, _, _, _, _, -, rfl⟩ | ⟨-, _, _, _, _, _, _, _, -, rfl⟩ |
      ⟨-, _, _, _, -, rfl⟩ | ⟨-, -, rfl⟩ <;> cases id <;> rfl
  | suffix =>
    obtain ⟨e0, e1, e2, e3, rfl, rfl⟩ := decodeSuffix_cases h
    rfl

/-- An instruction is read from a prefix of the bytes, and that prefix alone reads as it. -/
theorem decode_prefix {k : Part} {bs rest : List Byte} {i : Instr} (h : decode k bs = .ok (i, rest)) :
    ∃ pre, bs = pre ++ rest ∧ decode k pre = .ok (i, []) := by
  cases k with
  | header =>
    obtain ⟨b0, bs', id, mid, rfl, h1, h2⟩ := decodeHeader_cases h
    obtain ⟨pm, rfl, hpm⟩ : ∃ pm, mid = pm ++ rest ∧ decodeMessage (fmtOf b0) id pm = .ok (i, []) := by
      rcases decodeMessage_cases h2 with ⟨hf, t0, t1, t2, l0, l1, l2, y, m0, m1, m2, m3, rfl, rfl⟩ |
        ⟨hf, d0, d1, d2, l0, l1, l2, y, rfl, rfl⟩ | ⟨hf, d0, d1, d2, rfl, rfl⟩ | ⟨hf, rfl, rfl⟩
      · exact ⟨[t0, t1, t2, l0, l1, l2, y, m0, m1, m2, m3], rfl, by simp [decodeMessage, hf]⟩
      · exact ⟨[d0, d1, d2, l0, l1, l2, y], rfl, by simp [decodeMessage, hf]⟩
      · exact ⟨[d0, d1, d2], rfl, by simp [decodeMessage, hf]⟩
      · exact ⟨[], rfl, by simp [decodeMessage, hf]⟩
    obtain ⟨pi, rfl, hpi⟩ : ∃ pi, bs' = pi ++ (pm ++ rest) ∧ decodeId b0 pi = .ok (id, []) := by
      rcases decodeId_cases h1 with ⟨hc, x, rfl, rfl⟩ | ⟨hc, x, y, rfl, rfl⟩ | ⟨hc, hc', rfl, rfl⟩
      · exact ⟨[x], rfl, by simp [decodeId, hc]⟩
      · exact ⟨[x, y], rfl, by simp [decodeId, hc, Config.mark2, Config.mark3]⟩
      · exact ⟨[], rfl, by simp [decodeId, hc, hc']⟩
    refine ⟨b0 :: (pi ++ pm), by simp, ?_⟩
    simp [decode, decodeHeader, decodeId_append pm hpi, hpm]
  | suffix =>
    obtain ⟨e0, e1, e2, e3, rfl, rfl⟩ := decodeSuffix_cases h
    exact ⟨[e0, e1, e2, e3], rfl, rfl⟩

/-- The last byte that makes an instruction whole leaves nothing over: the decoder never reads ahead (R155). -/
theorem decode_minimal {k : Part} {bs rest : List Byte} {b : Byte} {i : Instr} {e : DecodeError}
    (hs : decode k bs = .error e) (h : decode k (bs ++ [b]) = .ok (i, rest)) : rest = [] := by
  obtain ⟨pre, hpre, hp⟩ := decode_prefix h
  rcases List.eq_nil_or_concat rest with rfl | ⟨r, c, rfl⟩
  · rfl
  · rw [List.concat_eq_append, ← List.append_assoc] at hpre
    obtain ⟨rfl, -⟩ := List.append_inj' hpre rfl
    have := decode_append r hp
    rw [this] at hs
    cases hs

end Sys2Proof
end

