-- ==== Sys2Proof/Laws/Encoder.lean ====
section
/-! SUPPORT. What the encoder's functions answer, by case. -/

namespace Sys2Proof.Machine

/-! ### The basic header (R100) -/

theorem bhEnc_b1 {id : U32} (f : BitVec 2) (h : id.toNat < 64) : bhEnc f id = bh1 f (BitVec.ofNat 6 id.toNat) :=
  if_pos h

theorem bhEnc_b2 {id : U32} (f : BitVec 2) (h : 64 ≤ id.toNat) (h' : id.toNat < 320) :
    bhEnc f id = bh2 f (BitVec.ofNat 8 (id.toNat - 64)) :=
  (if_neg (Nat.not_lt.2 h)).trans (if_pos h')

theorem bhEnc_b3 {id : U32} (f : BitVec 2) (h : 320 ≤ id.toNat) : bhEnc f id = bh3 f (BitVec.ofNat 16 (id.toNat - 64)) :=
  (if_neg (show ¬ id.toNat < 64 by omega)).trans (if_neg (Nat.not_lt.2 h))

/-! ### The suffix (R140) -/

theorem encExt_timestamp {m : MessageHeader} (h : 16777215 ≤ m.timestamp.toNat) : encExt m = some m.timestamp :=
  if_pos h

theorem encExt_delta {m : MessageHeader} (h : m.timestamp.toNat < 16777215) (h' : 16777215 ≤ m.timestampDelta.toNat) :
    encExt m = some m.timestampDelta :=
  (if_neg (Nat.not_le.2 h)).trans (if_pos h')

theorem encExt_none {m : MessageHeader} (h : m.timestamp.toNat < 16777215) (h' : m.timestampDelta.toNat < 16777215) :
    encExt m = none :=
  (if_neg (Nat.not_le.2 h)).trans (if_neg (Nat.not_le.2 h'))

theorem xtsEnc_some {m : MessageHeader} {v : U32} (h : encExt m = some v) : xtsEnc m = be32 v := by
  simp only [xtsEnc, h]

theorem xtsEnc_none {m : MessageHeader} (h : encExt m = none) : xtsEnc m = [] := by
  simp only [xtsEnc, h]

@[simp] theorem clamp24_toNat (v : U32) : (clamp24 v).toNat = min v.toNat 16777215 := by
  simp [clamp24, Config.S]

/-! ### ENC (R150) -/

theorem encHeader_badId {h : EncOperand} (hi : 65600 ≤ h.subStreamID.toNat) : encHeader h = .error .invalidSubStreamID :=
  if_pos hi

theorem encHeader_badFormat {h : EncOperand} (hi : h.subStreamID.toNat < 65600) (hf : 3 < h.format.toNat) :
    encHeader h = .error .unknownFormat :=
  (if_neg (Nat.not_le.2 hi)).trans (if_pos hf)

theorem encHeader_ok {h : EncOperand} (hi : h.subStreamID.toNat < 65600) (hf : h.format.toNat ≤ 3) :
    encHeader h = .ok (bhEnc (h.format.extractLsb' 0 2) h.subStreamID ++ mhEnc (h.format.extractLsb' 0 2) h.message ++
      xtsEnc h.message) :=
  (if_neg (Nat.not_le.2 hi)).trans (if_neg (Nat.not_lt.2 hf))

end Sys2Proof.Machine
end

