-- ==== Sys2Proof/Laws/State.lean ====
section
/-! SUPPORT. What each named update of `Ops` does to each field of the state: one lemma a field, true by `rfl`. -/

namespace Sys2Proof.Machine

open Sys2Proof.Config (IoErr)

variable (s : State)

@[simp] theorem withHist_eh (hist : List ChunkHeader) : (s.withHist hist).eh = s.eh := rfl
@[simp] theorem withHist_encStatus (hist : List ChunkHeader) : (s.withHist hist).encStatus = s.encStatus := rfl
@[simp] theorem withHist_out (hist : List ChunkHeader) : (s.withHist hist).out = s.out := rfl
@[simp] theorem withHist_dh (hist : List ChunkHeader) : (s.withHist hist).dh = s.dh := rfl
@[simp] theorem withHist_dhValid (hist : List ChunkHeader) : (s.withHist hist).dhValid = s.dhValid := rfl
@[simp] theorem withHist_dec (hist : List ChunkHeader) : (s.withHist hist).dec = s.dec := rfl
@[simp] theorem withHist_part (hist : List ChunkHeader) : (s.withHist hist).part = s.part := rfl
@[simp] theorem withHist_p (hist : List ChunkHeader) : (s.withHist hist).p = s.p := rfl
@[simp] theorem withHist_cur (hist : List ChunkHeader) : (s.withHist hist).cur = s.cur := rfl
@[simp] theorem withHist_hist (hist : List ChunkHeader) : (s.withHist hist).hist = hist := rfl
@[simp] theorem withHist_src (hist : List ChunkHeader) : (s.withHist hist).src = s.src := rfl
@[simp] theorem withHist_snk (hist : List ChunkHeader) : (s.withHist hist).snk = s.snk := rfl
@[simp] theorem withHist_inputs (hist : List ChunkHeader) : (s.withHist hist).inputs = s.inputs := rfl
@[simp] theorem withHist_draws (hist : List ChunkHeader) : (s.withHist hist).draws = s.draws := rfl

@[simp] theorem encRespond_eh (h : EncOperand) (k : Status) (bs : List Byte) : (s.encRespond h k bs).eh = h := rfl
@[simp] theorem encRespond_encStatus (h : EncOperand) (k : Status) (bs : List Byte) : (s.encRespond h k bs).encStatus = k := rfl
@[simp] theorem encRespond_out (h : EncOperand) (k : Status) (bs : List Byte) : (s.encRespond h k bs).out = bs := rfl
@[simp] theorem encRespond_dh (h : EncOperand) (k : Status) (bs : List Byte) : (s.encRespond h k bs).dh = s.dh := rfl
@[simp] theorem encRespond_dhValid (h : EncOperand) (k : Status) (bs : List Byte) : (s.encRespond h k bs).dhValid = s.dhValid := rfl
@[simp] theorem encRespond_dec (h : EncOperand) (k : Status) (bs : List Byte) : (s.encRespond h k bs).dec = s.dec := rfl
@[simp] theorem encRespond_part (h : EncOperand) (k : Status) (bs : List Byte) : (s.encRespond h k bs).part = s.part := rfl
@[simp] theorem encRespond_p (h : EncOperand) (k : Status) (bs : List Byte) : (s.encRespond h k bs).p = s.p := rfl
@[simp] theorem encRespond_cur (h : EncOperand) (k : Status) (bs : List Byte) : (s.encRespond h k bs).cur = s.cur := rfl
@[simp] theorem encRespond_hist (h : EncOperand) (k : Status) (bs : List Byte) : (s.encRespond h k bs).hist = s.hist := rfl
@[simp] theorem encRespond_src (h : EncOperand) (k : Status) (bs : List Byte) : (s.encRespond h k bs).src = s.src := rfl
@[simp] theorem encRespond_snk (h : EncOperand) (k : Status) (bs : List Byte) : (s.encRespond h k bs).snk = s.snk := rfl
@[simp] theorem encRespond_inputs (h : EncOperand) (k : Status) (bs : List Byte) : (s.encRespond h k bs).inputs = s.inputs := rfl
@[simp] theorem encRespond_draws (h : EncOperand) (k : Status) (bs : List Byte) : (s.encRespond h k bs).draws = s.draws := rfl

@[simp] theorem startDec_eh : (s.startDec).eh = s.eh := rfl
@[simp] theorem startDec_encStatus : (s.startDec).encStatus = s.encStatus := rfl
@[simp] theorem startDec_out : (s.startDec).out = s.out := rfl
@[simp] theorem startDec_dh : (s.startDec).dh = DecResult.cleared := rfl
@[simp] theorem startDec_dhValid : (s.startDec).dhValid = false := rfl
@[simp] theorem startDec_dec : (s.startDec).dec = .reading .header := rfl
@[simp] theorem startDec_part : (s.startDec).part = [] := rfl
@[simp] theorem startDec_p : (s.startDec).p = 0 := rfl
@[simp] theorem startDec_cur : (s.startDec).cur = s.cur := rfl
@[simp] theorem startDec_hist : (s.startDec).hist = s.hist := rfl
@[simp] theorem startDec_src : (s.startDec).src = s.src := rfl
@[simp] theorem startDec_snk : (s.startDec).snk = s.snk := rfl
@[simp] theorem startDec_inputs : (s.startDec).inputs = s.inputs := rfl
@[simp] theorem startDec_draws : (s.startDec).draws = s.draws := rfl

@[simp] theorem awaitSuffix_eh (d : DecResult) : (s.awaitSuffix d).eh = s.eh := rfl
@[simp] theorem awaitSuffix_encStatus (d : DecResult) : (s.awaitSuffix d).encStatus = s.encStatus := rfl
@[simp] theorem awaitSuffix_out (d : DecResult) : (s.awaitSuffix d).out = s.out := rfl
@[simp] theorem awaitSuffix_dh (d : DecResult) : (s.awaitSuffix d).dh = d := rfl
@[simp] theorem awaitSuffix_dhValid (d : DecResult) : (s.awaitSuffix d).dhValid = false := rfl
@[simp] theorem awaitSuffix_dec (d : DecResult) : (s.awaitSuffix d).dec = .reading .suffix := rfl
@[simp] theorem awaitSuffix_part (d : DecResult) : (s.awaitSuffix d).part = [] := rfl
@[simp] theorem awaitSuffix_p (d : DecResult) : (s.awaitSuffix d).p = s.p := rfl
@[simp] theorem awaitSuffix_cur (d : DecResult) : (s.awaitSuffix d).cur = s.cur := rfl
@[simp] theorem awaitSuffix_hist (d : DecResult) : (s.awaitSuffix d).hist = s.hist := rfl
@[simp] theorem awaitSuffix_src (d : DecResult) : (s.awaitSuffix d).src = s.src := rfl
@[simp] theorem awaitSuffix_snk (d : DecResult) : (s.awaitSuffix d).snk = s.snk := rfl
@[simp] theorem awaitSuffix_inputs (d : DecResult) : (s.awaitSuffix d).inputs = s.inputs := rfl
@[simp] theorem awaitSuffix_draws (d : DecResult) : (s.awaitSuffix d).draws = s.draws := rfl

@[simp] theorem finishDec_eh (d : DecResult) : (s.finishDec d).eh = s.eh := rfl
@[simp] theorem finishDec_encStatus (d : DecResult) : (s.finishDec d).encStatus = s.encStatus := rfl
@[simp] theorem finishDec_out (d : DecResult) : (s.finishDec d).out = s.out := rfl
@[simp] theorem finishDec_dh (d : DecResult) : (s.finishDec d).dh = { d with status := .ok, consumed := d.total } := rfl
@[simp] theorem finishDec_dhValid (d : DecResult) : (s.finishDec d).dhValid = true := rfl
@[simp] theorem finishDec_dec (d : DecResult) : (s.finishDec d).dec = .idle := rfl
@[simp] theorem finishDec_part (d : DecResult) : (s.finishDec d).part = [] := rfl
@[simp] theorem finishDec_p (d : DecResult) : (s.finishDec d).p = 0 := rfl
@[simp] theorem finishDec_cur (d : DecResult) : (s.finishDec d).cur = s.cur := rfl
@[simp] theorem finishDec_hist (d : DecResult) : (s.finishDec d).hist = s.hist := rfl
@[simp] theorem finishDec_src (d : DecResult) : (s.finishDec d).src = s.src := rfl
@[simp] theorem finishDec_snk (d : DecResult) : (s.finishDec d).snk = s.snk := rfl
@[simp] theorem finishDec_inputs (d : DecResult) : (s.finishDec d).inputs = s.inputs := rfl
@[simp] theorem finishDec_draws (d : DecResult) : (s.finishDec d).draws = s.draws := rfl

@[simp] theorem raiseDec_eh (k : Status) (io : IoErr) (d : DecResult) : (s.raiseDec k io d).eh = s.eh := rfl
@[simp] theorem raiseDec_encStatus (k : Status) (io : IoErr) (d : DecResult) : (s.raiseDec k io d).encStatus = s.encStatus := rfl
@[simp] theorem raiseDec_out (k : Status) (io : IoErr) (d : DecResult) : (s.raiseDec k io d).out = s.out := rfl
@[simp] theorem raiseDec_dh (k : Status) (io : IoErr) (d : DecResult) : (s.raiseDec k io d).dh = { d with status := k, io := io, header := Config.freeHeader s.draws, faultPos := BitVec.ofNat 5 s.p } := rfl
@[simp] theorem raiseDec_dhValid (k : Status) (io : IoErr) (d : DecResult) : (s.raiseDec k io d).dhValid = true := rfl
@[simp] theorem raiseDec_dec (k : Status) (io : IoErr) (d : DecResult) : (s.raiseDec k io d).dec = .idle := rfl
@[simp] theorem raiseDec_part (k : Status) (io : IoErr) (d : DecResult) : (s.raiseDec k io d).part = [] := rfl
@[simp] theorem raiseDec_p (k : Status) (io : IoErr) (d : DecResult) : (s.raiseDec k io d).p = 0 := rfl
@[simp] theorem raiseDec_cur (k : Status) (io : IoErr) (d : DecResult) : (s.raiseDec k io d).cur = s.cur := rfl
@[simp] theorem raiseDec_hist (k : Status) (io : IoErr) (d : DecResult) : (s.raiseDec k io d).hist = s.hist := rfl
@[simp] theorem raiseDec_src (k : Status) (io : IoErr) (d : DecResult) : (s.raiseDec k io d).src = s.src := rfl
@[simp] theorem raiseDec_snk (k : Status) (io : IoErr) (d : DecResult) : (s.raiseDec k io d).snk = s.snk := rfl
@[simp] theorem raiseDec_inputs (k : Status) (io : IoErr) (d : DecResult) : (s.raiseDec k io d).inputs = s.inputs := rfl
@[simp] theorem raiseDec_draws (k : Status) (io : IoErr) (d : DecResult) : (s.raiseDec k io d).draws = s.draws + 1 := rfl

@[simp] theorem consume_eh (bs : List Byte) (src : List Answer) (n : Nat) : (s.consume bs src n).eh = s.eh := rfl
@[simp] theorem consume_encStatus (bs : List Byte) (src : List Answer) (n : Nat) : (s.consume bs src n).encStatus = s.encStatus := rfl
@[simp] theorem consume_out (bs : List Byte) (src : List Answer) (n : Nat) : (s.consume bs src n).out = s.out := rfl
@[simp] theorem consume_dh (bs : List Byte) (src : List Answer) (n : Nat) : (s.consume bs src n).dh = s.dh := rfl
@[simp] theorem consume_dhValid (bs : List Byte) (src : List Answer) (n : Nat) : (s.consume bs src n).dhValid = s.dhValid := rfl
@[simp] theorem consume_dec (bs : List Byte) (src : List Answer) (n : Nat) : (s.consume bs src n).dec = s.dec := rfl
@[simp] theorem consume_part (bs : List Byte) (src : List Answer) (n : Nat) : (s.consume bs src n).part = bs := rfl
@[simp] theorem consume_p (bs : List Byte) (src : List Answer) (n : Nat) : (s.consume bs src n).p = s.p + n := rfl
@[simp] theorem consume_cur (bs : List Byte) (src : List Answer) (n : Nat) : (s.consume bs src n).cur = s.cur + n := rfl
@[simp] theorem consume_hist (bs : List Byte) (src : List Answer) (n : Nat) : (s.consume bs src n).hist = s.hist := rfl
@[simp] theorem consume_src (bs : List Byte) (src : List Answer) (n : Nat) : (s.consume bs src n).src = src := rfl
@[simp] theorem consume_snk (bs : List Byte) (src : List Answer) (n : Nat) : (s.consume bs src n).snk = s.snk := rfl
@[simp] theorem consume_inputs (bs : List Byte) (src : List Answer) (n : Nat) : (s.consume bs src n).inputs = s.inputs := rfl
@[simp] theorem consume_draws (bs : List Byte) (src : List Answer) (n : Nat) : (s.consume bs src n).draws = s.draws := rfl

@[simp] theorem withInputs_eh (rest : List Input) : (s.withInputs rest).eh = s.eh := rfl
@[simp] theorem withInputs_encStatus (rest : List Input) : (s.withInputs rest).encStatus = s.encStatus := rfl
@[simp] theorem withInputs_out (rest : List Input) : (s.withInputs rest).out = s.out := rfl
@[simp] theorem withInputs_dh (rest : List Input) : (s.withInputs rest).dh = s.dh := rfl
@[simp] theorem withInputs_dhValid (rest : List Input) : (s.withInputs rest).dhValid = s.dhValid := rfl
@[simp] theorem withInputs_dec (rest : List Input) : (s.withInputs rest).dec = s.dec := rfl
@[simp] theorem withInputs_part (rest : List Input) : (s.withInputs rest).part = s.part := rfl
@[simp] theorem withInputs_p (rest : List Input) : (s.withInputs rest).p = s.p := rfl
@[simp] theorem withInputs_cur (rest : List Input) : (s.withInputs rest).cur = s.cur := rfl
@[simp] theorem withInputs_hist (rest : List Input) : (s.withInputs rest).hist = s.hist := rfl
@[simp] theorem withInputs_src (rest : List Input) : (s.withInputs rest).src = s.src := rfl
@[simp] theorem withInputs_snk (rest : List Input) : (s.withInputs rest).snk = s.snk := rfl
@[simp] theorem withInputs_inputs (rest : List Input) : (s.withInputs rest).inputs = rest := rfl
@[simp] theorem withInputs_draws (rest : List Input) : (s.withInputs rest).draws = s.draws := rfl

@[simp] theorem arrive_eh (a : Answer) : (s.arrive a).eh = s.eh := rfl
@[simp] theorem arrive_encStatus (a : Answer) : (s.arrive a).encStatus = s.encStatus := rfl
@[simp] theorem arrive_out (a : Answer) : (s.arrive a).out = s.out := rfl
@[simp] theorem arrive_dh (a : Answer) : (s.arrive a).dh = s.dh := rfl
@[simp] theorem arrive_dhValid (a : Answer) : (s.arrive a).dhValid = s.dhValid := rfl
@[simp] theorem arrive_dec (a : Answer) : (s.arrive a).dec = s.dec := rfl
@[simp] theorem arrive_part (a : Answer) : (s.arrive a).part = s.part := rfl
@[simp] theorem arrive_p (a : Answer) : (s.arrive a).p = s.p := rfl
@[simp] theorem arrive_cur (a : Answer) : (s.arrive a).cur = s.cur := rfl
@[simp] theorem arrive_hist (a : Answer) : (s.arrive a).hist = s.hist := rfl
@[simp] theorem arrive_src (a : Answer) : (s.arrive a).src = s.src ++ [a] := rfl
@[simp] theorem arrive_snk (a : Answer) : (s.arrive a).snk = s.snk := rfl
@[simp] theorem arrive_inputs (a : Answer) : (s.arrive a).inputs = s.inputs := rfl
@[simp] theorem arrive_draws (a : Answer) : (s.arrive a).draws = s.draws := rfl

@[simp] theorem send_eh : (s.send).eh = s.eh := rfl
@[simp] theorem send_encStatus : (s.send).encStatus = s.encStatus := rfl
@[simp] theorem send_out : (s.send).out = s.out := rfl
@[simp] theorem send_dh : (s.send).dh = s.dh := rfl
@[simp] theorem send_dhValid : (s.send).dhValid = s.dhValid := rfl
@[simp] theorem send_dec : (s.send).dec = s.dec := rfl
@[simp] theorem send_part : (s.send).part = s.part := rfl
@[simp] theorem send_p : (s.send).p = s.p := rfl
@[simp] theorem send_cur : (s.send).cur = s.cur := rfl
@[simp] theorem send_hist : (s.send).hist = s.hist := rfl
@[simp] theorem send_src : (s.send).src = s.src := rfl
@[simp] theorem send_snk : (s.send).snk = s.snk ++ s.out := rfl
@[simp] theorem send_inputs : (s.send).inputs = s.inputs := rfl
@[simp] theorem send_draws : (s.send).draws = s.draws := rfl

@[simp] theorem resetCodec_eh : (s.resetCodec).eh = zeroOperand := rfl
@[simp] theorem resetCodec_encStatus : (s.resetCodec).encStatus = .ok := rfl
@[simp] theorem resetCodec_out : (s.resetCodec).out = [] := rfl
@[simp] theorem resetCodec_dh : (s.resetCodec).dh = DecResult.cleared := rfl
@[simp] theorem resetCodec_dhValid : (s.resetCodec).dhValid = false := rfl
@[simp] theorem resetCodec_dec : (s.resetCodec).dec = .idle := rfl
@[simp] theorem resetCodec_part : (s.resetCodec).part = [] := rfl
@[simp] theorem resetCodec_p : (s.resetCodec).p = 0 := rfl
@[simp] theorem resetCodec_cur : (s.resetCodec).cur = 0 := rfl
@[simp] theorem resetCodec_hist : (s.resetCodec).hist = [] := rfl
@[simp] theorem resetCodec_src : (s.resetCodec).src = s.src := rfl
@[simp] theorem resetCodec_snk : (s.resetCodec).snk = s.snk := rfl
@[simp] theorem resetCodec_inputs : (s.resetCodec).inputs = s.inputs := rfl
@[simp] theorem resetCodec_draws : (s.resetCodec).draws = s.draws := rfl

@[simp] theorem histAppend_eq (h : ChunkHeader) : s.histAppend h = s.withHist (s.hist ++ [h]) := rfl

@[simp] theorem recordExt_eq (e : U32) :
    s.recordExt e = s.finishDec { s.dh with header := { s.dh.header with extV := true, ext := e }, xtsLen := 4 } := rfl

@[simp] theorem ready_iff : s.ready = true ↔ s.dec = .idle := by
  simp [State.ready]

end Sys2Proof.Machine
end

