-- ==== Sys2Proof/Laws/Ops.lean ====
section
/-! SUPPORT. What each shared operation of `Ops` can do, said once. -/

namespace Sys2Proof.Machine

/-! ### The history -/

@[simp] theorem histLookup_nil (id : U32) : histLookup [] id = none := rfl

@[simp] theorem histLookup_append (hist : List ChunkHeader) (h : ChunkHeader) (id : U32) :
    histLookup (hist ++ [h]) id = if h.basic.subStreamID = id then some h else histLookup hist id := by
  by_cases hid : h.basic.subStreamID = id <;> simp [histLookup, hid]

/-- An entry that is found has the id that was asked for. -/
theorem histLookup_id {hist : List ChunkHeader} {id : U32} {e : ChunkHeader} (h : histLookup hist id = some e) :
    e.basic.subStreamID = id := by
  have := List.find?_some h
  simpa using this

/-! ### The course of a DEC -/

/-- What `afterMessage` does. -/
theorem afterMessage_cases (s : State) (d : DecResult) :
    (sentinel d.header.message = true ∧ s.afterMessage d = s.awaitSuffix d) ∨
    (sentinel d.header.message = false ∧ s.afterMessage d = s.finishDec d) := by
  cases h : sentinel d.header.message <;> simp [State.afterMessage, h]

theorem inheritMessage_some {s : State} {id : U32} {e : ChunkHeader} (bh : BitVec 2) (h : histLookup s.hist id = some e) :
    s.inheritMessage id bh = s.afterMessage (headerResult 3 id e.message bh 0) := by
  simp only [State.inheritMessage, h]

theorem inheritMessage_none {s : State} {id : U32} (bh : BitVec 2) (h : histLookup s.hist id = none) :
    s.inheritMessage id bh = s.raiseDec .noPreviousChunk Config.IoErr.zero { DecResult.cleared with bhLen := bh } := by
  simp only [State.inheritMessage, h]

/-- What `inheritMessage` does. -/
theorem inheritMessage_cases (s : State) (id : U32) (bh : BitVec 2) :
    (∃ e, histLookup s.hist id = some e ∧ s.inheritMessage id bh = s.afterMessage (headerResult 3 id e.message bh 0)) ∨
    (histLookup s.hist id = none ∧
      s.inheritMessage id bh = s.raiseDec .noPreviousChunk Config.IoErr.zero { DecResult.cleared with bhLen := bh }) := by
  cases h : histLookup s.hist id with
  | none => exact .inr ⟨rfl, inheritMessage_none bh h⟩
  | some e => exact .inl ⟨e, rfl, inheritMessage_some bh h⟩

/-! ### The byte source -/

/-- What a run of byte requests can come to. `new` are the bytes it was given. -/
theorem pull_cases {k : Part} {bs bs' : List Byte} {src rest : List Answer} {stop : Stop}
    (h : pull k bs src = (bs', rest, stop)) :
    ∃ new, bs' = bs ++ new ∧
      ((∃ i r, stop = .complete i ∧ src = new.map Answer.byte ++ rest ∧ decode k bs' = .ok (i, r)) ∨
       (stop = .waiting ∧ src = new.map Answer.byte ∧ rest = [] ∧ ∃ e, decode k bs' = .error e) ∨
       (stop = .ended ∧ src = new.map Answer.byte ++ Answer.ended :: rest ∧ ∃ e, decode k bs' = .error e) ∨
       (∃ x, stop = .failed x ∧ src = new.map Answer.byte ++ Answer.failed x :: rest ∧ ∃ e, decode k bs' = .error e)) := by
  induction src generalizing bs with
  | nil =>
    cases hd : decode k bs with
    | ok v =>
      obtain ⟨i, r⟩ := v
      simp only [pull, hd, Prod.mk.injEq] at h
      obtain ⟨rfl, rfl, rfl⟩ := h
      exact ⟨[], by simp, .inl ⟨i, r, rfl, rfl, hd⟩⟩
    | error e =>
      simp only [pull, hd, Prod.mk.injEq] at h
      obtain ⟨rfl, rfl, rfl⟩ := h
      exact ⟨[], by simp, .inr (.inl ⟨rfl, rfl, rfl, e, hd⟩)⟩
  | cons a src ih =>
    cases hd : decode k bs with
    | ok v =>
      obtain ⟨i, r⟩ := v
      simp only [pull, hd, Prod.mk.injEq] at h
      obtain ⟨rfl, rfl, rfl⟩ := h
      exact ⟨[], by simp, .inl ⟨i, r, rfl, rfl, hd⟩⟩
    | error e =>
      cases a with
      | byte b =>
        simp only [pull, hd] at h
        obtain ⟨new, rfl, hn⟩ := ih h
        refine ⟨b :: new, by simp, ?_⟩
        rcases hn with ⟨i, r, rfl, rfl, hr⟩ | ⟨rfl, rfl, rfl, hr⟩ | ⟨rfl, rfl, hr⟩ | ⟨x, rfl, rfl, hr⟩
        · exact .inl ⟨i, r, rfl, rfl, hr⟩
        · exact .inr (.inl ⟨rfl, rfl, rfl, hr⟩)
        · exact .inr (.inr (.inl ⟨rfl, rfl, hr⟩))
        · exact .inr (.inr (.inr ⟨x, rfl, rfl, hr⟩))
      | ended =>
        simp only [pull, hd, Prod.mk.injEq] at h
        obtain ⟨rfl, rfl, rfl⟩ := h
        exact ⟨[], by simp, .inr (.inr (.inl ⟨rfl, rfl, e, hd⟩))⟩
      | failed x =>
        simp only [pull, hd, Prod.mk.injEq] at h
        obtain ⟨rfl, rfl, rfl⟩ := h
        exact ⟨[], by simp, .inr (.inr (.inr ⟨x, rfl, rfl, e, hd⟩))⟩

/-- Where the bytes held do not spell an instruction yet, an instruction that is completed leaves no byte over. -/
theorem pull_complete {k : Part} {bs bs' : List Byte} {src rest : List Answer} {i : Instr} {e : DecodeError}
    (hs : decode k bs = .error e) (h : pull k bs src = (bs', rest, .complete i)) : decode k bs' = .ok (i, []) := by
  induction src generalizing bs e with
  | nil => simp [pull, hs] at h
  | cons a src ih =>
    cases a with
    | byte b =>
      simp only [pull, hs] at h
      cases hd : decode k (bs ++ [b]) with
      | error e' => exact ih hd h
      | ok v =>
        obtain ⟨j, r⟩ := v
        have hr := decode_minimal hs hd
        cases src <;> simp only [pull, hd, Prod.mk.injEq, Stop.complete.injEq] at h <;>
          obtain ⟨rfl, -, rfl⟩ := h <;> rw [hd, hr]
    | ended => simp [pull, hs] at h
    | failed x => simp [pull, hs] at h

/-- Bytes that, behind those held, spell an instruction and nothing more are all taken, and no other (R47, R155). -/
theorem pull_of_decode {k : Part} {bs new : List Byte} {rest : List Answer} {i : Instr}
    (h : decode k (bs ++ new) = .ok (i, [])) :
    pull k bs (new.map Answer.byte ++ rest) = (bs ++ new, rest, .complete i) := by
  induction new generalizing bs with
  | nil =>
    simp only [List.append_nil] at h
    cases rest <;> simp [pull, h]
  | cons b new ih =>
    have h' : decode k ((bs ++ [b]) ++ new) = .ok (i, []) := by simpa using h
    cases hd : decode k bs with
    | ok v =>
      obtain ⟨j, r⟩ := v
      have := decode_append (b :: new) hd
      rw [h] at this
      simp at this
    | error e => simp [pull, hd, ih h']

/-- Bytes that, with those held, are too short are all taken, and the answer behind them decides (R41). -/
theorem pull_of_short {k : Part} {bs new : List Byte} {rest : List Answer} {e : DecodeError}
    (h : decode k (bs ++ new) = .error e) :
    pull k bs (new.map Answer.byte ++ rest) = pull k (bs ++ new) rest := by
  induction new generalizing bs with
  | nil => simp
  | cons b new ih =>
    have h' : decode k ((bs ++ [b]) ++ new) = .error e := by simpa using h
    cases hd : decode k bs with
    | ok v =>
      obtain ⟨j, r⟩ := v
      have := decode_append (b :: new) hd
      rw [h] at this
      simp at this
    | error e' => simp [pull, hd, ih h']

end Sys2Proof.Machine
end

