-- ==== Sys2Proof/Laws/Step.lean ====
section
/-! SUPPORT. What a step can do, said once: one lemma for the decoder's part, one for the external agents', one for both. -/

namespace Sys2Proof.Machine

/-- The decoder has taken the bytes `new` from the source. -/
def State.taken (s : State) (new : List Byte) (rest : List Answer) : State :=
  s.consume (s.part ++ new) rest new.length

/-- What `fetch` can do: it completes an instruction (leaving no byte over, where the bytes held did not spell one), waits, or
ends the DEC with an error. -/
theorem fetch_cases (k : Part) (s : State) :
    ∃ new rest,
      (∃ i r, s.src = new.map Answer.byte ++ rest ∧ decode k (s.part ++ new) = .ok (i, r) ∧
        ((∃ e, decode k s.part = .error e) → r = []) ∧ fetch k s = exec i (s.taken new rest)) ∨
      (s.src = new.map Answer.byte ∧ rest = [] ∧ (∃ e, decode k (s.part ++ new) = .error e) ∧
        fetch k s = .next (s.taken new rest)) ∨
      (s.src = new.map Answer.byte ++ Answer.ended :: rest ∧ (∃ e, decode k (s.part ++ new) = .error e) ∧
        fetch k s = .next ((s.taken new rest).raiseDec .endOfStream Config.IoErr.zero ((s.taken new rest).errorResult k))) ∨
      (∃ x, s.src = new.map Answer.byte ++ Answer.failed x :: rest ∧ (∃ e, decode k (s.part ++ new) = .error e) ∧
        fetch k s = .next ((s.taken new rest).raiseDec .ioFailure x ((s.taken new rest).errorResult k))) := by
  rcases h : pull k s.part s.src with ⟨bs', rest, stop⟩
  obtain ⟨new, rfl, hn⟩ := pull_cases h
  refine ⟨new, rest, ?_⟩
  have hl : (s.part ++ new).length - s.part.length = new.length := by simp
  rcases hn with ⟨i, r, rfl, hs, hd⟩ | ⟨rfl, hs, hr, hd⟩ | ⟨rfl, hs, hd⟩ | ⟨x, rfl, hs, hd⟩
  · refine .inl ⟨i, r, hs, hd, fun ⟨e, he⟩ => ?_, by simp only [fetch, h, hl, State.taken]⟩
    have := pull_complete he h
    rw [hd] at this
    simpa using this
  · exact .inr (.inl ⟨hs, hr, hd, by simp only [fetch, h, hl, State.taken]⟩)
  · exact .inr (.inr (.inl ⟨hs, hd, by simp only [fetch, h, hl, State.taken]⟩))
  · exact .inr (.inr (.inr ⟨x, hs, hd, by simp only [fetch, h, hl, State.taken]⟩))

/-- `fetch` where the bytes next in the source complete an instruction. -/
theorem fetch_of_decode {k : Part} {s : State} {new : List Byte} {rest : List Answer} {i : Instr}
    (hs : s.src = new.map Answer.byte ++ rest) (h : decode k (s.part ++ new) = .ok (i, [])) :
    fetch k s = exec i (s.taken new rest) := by
  have hl : (s.part ++ new).length - s.part.length = new.length := by simp
  simp only [fetch, hs, pull_of_decode h, hl, State.taken]

/-- The step of a machine whose decoder has answers to take. -/
theorem step_reading {k : Part} {s : State} (hd : s.dec = .reading k) (hs : s.src ≠ []) : step s = fetch k s := by
  unfold step cycle
  cases h : s.src with
  | nil => exact absurd h hs
  | cons a rest => rw [hd]

/-- The step of a machine whose decoder is idle or has to wait. -/
theorem step_waiting {s : State} (h : s.dec = .idle ∨ s.src = []) : step s = takeInput s := by
  unfold step cycle
  rcases h with h | h <;> rw [h]
  · cases s.dec <;> rfl

/-- What a step that answers a next state can have been. -/
theorem step_cases {s t : State} (h : step s = .next t) :
    (∃ k, s.dec = .reading k ∧ s.src ≠ [] ∧ fetch k s = .next t) ∨
    ((s.dec = .idle ∨ s.src = []) ∧ takeInput s = .next t) := by
  cases hd : s.dec with
  | idle => exact .inr ⟨.inl rfl, by rw [← step_waiting (.inl hd)]; exact h⟩
  | reading k =>
    by_cases hs : s.src = []
    · exact .inr ⟨.inr hs, by rw [← step_waiting (.inr hs)]; exact h⟩
    · exact .inl ⟨k, rfl, hs, by rw [← step_reading hd hs]; exact h⟩

/-- What an external agent's act that answers a next state can have been. -/
theorem takeInput_cases {s t : State} (h : takeInput s = .next t) :
    t = s ∨
    (∃ h' rest, s.inputs = .op (.enc h') :: rest ∧ execEnc h' (s.withInputs rest) = .next t) ∨
    (∃ rest, s.inputs = .op .dec :: rest ∧ s.dec = .idle ∧ t = (s.withInputs rest).startDec) ∨
    (∃ h' rest, s.inputs = .op (.hpush h') :: rest ∧ s.dec = .idle ∧ t = (s.withInputs rest).histAppend h') ∨
    (∃ rest, s.inputs = .op .hclr :: rest ∧ s.dec = .idle ∧ t = (s.withInputs rest).withHist []) ∨
    (∃ rest, s.inputs = .op .reset :: rest ∧ t = (s.withInputs rest).resetCodec) ∨
    (∃ a rest, s.inputs = .answer a :: rest ∧ t = (s.withInputs rest).arrive a) ∨
    (∃ rest, s.inputs = .hostSend :: rest ∧ t = (s.withInputs rest).send) ∨
    (∃ a src rest, s.inputs = .hostRead :: rest ∧ s.dec = .idle ∧ s.src = a :: src ∧
      t = (s.withInputs rest).hostTake a src) := by
  unfold takeInput at h
  split at h
  · left; simpa using h.symm
  · rename_i o rest hi
    cases o with
    | enc h' => exact .inr (.inl ⟨h', rest, hi, h⟩)
    | dec =>
      simp only [HostOp.toInstr, exec, execDec, ready_iff, withInputs_dec] at h
      split at h
      · rename_i hd
        exact .inr (.inr (.inl ⟨rest, hi, hd, by simpa using h.symm⟩))
      · cases h
    | hpush h' =>
      simp only [HostOp.toInstr, exec, execHpush, ready_iff, withInputs_dec] at h
      split at h
      · rename_i hd
        exact .inr (.inr (.inr (.inl ⟨h', rest, hi, hd, by simpa using h.symm⟩)))
      · cases h
    | hclr =>
      simp only [HostOp.toInstr, exec, execHclr, ready_iff, withInputs_dec] at h
      split at h
      · rename_i hd
        exact .inr (.inr (.inr (.inr (.inl ⟨rest, hi, hd, by simpa using h.symm⟩))))
      · cases h
    | reset =>
      refine .inr (.inr (.inr (.inr (.inr (.inl ⟨rest, hi, ?_⟩)))))
      simpa [HostOp.toInstr, exec, execReset] using h.symm
  · rename_i a rest hi
    exact .inr (.inr (.inr (.inr (.inr (.inr (.inl ⟨a, rest, hi, by simpa using h.symm⟩))))))
  · rename_i rest hi
    exact .inr (.inr (.inr (.inr (.inr (.inr (.inr (.inl ⟨rest, hi, by simpa using h.symm⟩)))))))
  · rename_i rest hi
    simp only [ready_iff] at h
    split at h
    · rename_i hd
      split at h
      · left; simpa using h.symm
      · rename_i a src hs
        exact .inr (.inr (.inr (.inr (.inr (.inr (.inr (.inr ⟨a, src, rest, hi, hd, hs, by simpa using h.symm⟩)))))))
    · cases h

/-- What ENC does. -/
theorem execEnc_cases (h : EncOperand) (s : State) :
    (∃ bs, encHeader h = .ok bs ∧ execEnc h s = .next (s.encRespond h .ok bs)) ∨
    (∃ e, encHeader h = .error e ∧ execEnc h s = .next (s.encRespond h e.status [])) := by
  cases he : encHeader h with
  | ok bs => left; exact ⟨bs, rfl, by simp [execEnc, he]⟩
  | error e => right; exact ⟨e, rfl, by simp [execEnc, he]⟩

@[simp] theorem hostTake_eh (s : State) (a : Answer) (rest : List Answer) : (s.hostTake a rest).eh = s.eh := by cases a <;> rfl
@[simp] theorem hostTake_encStatus (s : State) (a : Answer) (rest : List Answer) :
    (s.hostTake a rest).encStatus = s.encStatus := by cases a <;> rfl
@[simp] theorem hostTake_out (s : State) (a : Answer) (rest : List Answer) : (s.hostTake a rest).out = s.out := by cases a <;> rfl
@[simp] theorem hostTake_dh (s : State) (a : Answer) (rest : List Answer) : (s.hostTake a rest).dh = s.dh := by cases a <;> rfl
@[simp] theorem hostTake_dhValid (s : State) (a : Answer) (rest : List Answer) :
    (s.hostTake a rest).dhValid = s.dhValid := by cases a <;> rfl
@[simp] theorem hostTake_dec (s : State) (a : Answer) (rest : List Answer) : (s.hostTake a rest).dec = s.dec := by cases a <;> rfl
@[simp] theorem hostTake_part (s : State) (a : Answer) (rest : List Answer) : (s.hostTake a rest).part = s.part := by
  cases a <;> rfl
@[simp] theorem hostTake_p (s : State) (a : Answer) (rest : List Answer) : (s.hostTake a rest).p = s.p := by cases a <;> rfl
@[simp] theorem hostTake_hist (s : State) (a : Answer) (rest : List Answer) : (s.hostTake a rest).hist = s.hist := by
  cases a <;> rfl
@[simp] theorem hostTake_src (s : State) (a : Answer) (rest : List Answer) : (s.hostTake a rest).src = rest := by cases a <;> rfl

/-- A host read moves `cur` by at most one byte, never back. -/
theorem hostTake_cur_ge (s : State) (a : Answer) (rest : List Answer) : s.cur ≤ (s.hostTake a rest).cur := by
  cases a <;> simp [State.hostTake]

end Sys2Proof.Machine
end

