-- ==== Sys2Proof/Laws/Forms.lean ====
section
/-! SUPPORT. What `exec` does with a form that was read, by format and id field, said once for the three widths. -/

namespace Sys2Proof.Machine

/-- The sub-stream id an id field stands for. -/
def idOf : IdField → U32
  | .b1 cs => idB1 cs
  | .b2 i => idB2 i
  | .b3 i => idB3 i

/-- The width of the basic header with this id field. -/
def idWidth : IdField → BitVec 2
  | .b1 _ => 1
  | .b2 _ => 2
  | .b3 _ => 3

theorem exec_mkCh0 (t l : U24) (y : Byte) (m : U32) (id : IdField) (s : State) :
    exec (mkCh0 t l y m id) s = .next (s.afterMessage (headerResult 0 (idOf id) (message0 t l y m) (idWidth id) 11)) := by
  cases id <;> rfl

theorem exec_mkCh1 (d l : U24) (y : Byte) (id : IdField) (s : State) :
    exec (mkCh1 d l y id) s = .next (s.afterMessage (headerResult 1 (idOf id) (message1 d l y) (idWidth id) 7)) := by
  cases id <;> rfl

theorem exec_mkCh2 (d : U24) (id : IdField) (s : State) :
    exec (mkCh2 d id) s = .next (s.afterMessage (headerResult 2 (idOf id) (message2 d) (idWidth id) 3)) := by
  cases id <;> rfl

theorem exec_mkCh3 (id : IdField) (s : State) : exec (mkCh3 id) s = .next (s.inheritMessage (idOf id) (idWidth id)) := by
  cases id <;> rfl

theorem exec_xts (e : U32) (s : State) : exec (.xts e) s = .next (s.recordExt e) := rfl

@[simp] theorem timeOf_toNat (v : U24) : (timeOf v).toNat = v.toNat := by
  have := v.isLt
  simp only [timeOf, BitVec.toNat_ofNat]; omega

theorem idB1_toNat (cs : BitVec 6) : (idB1 cs).toNat = cs.toNat := by
  have := cs.isLt
  simp only [idB1, BitVec.toNat_ofNat]; omega

theorem idB2_toNat (i : BitVec 8) : (idB2 i).toNat = i.toNat + 64 := by
  have := i.isLt
  simp only [idB2, BitVec.toNat_ofNat, Config.ssidBias]; omega

theorem idB3_toNat (i : BitVec 16) : (idB3 i).toNat = i.toNat + 64 := by
  have := i.isLt
  simp only [idB3, BitVec.toNat_ofNat, Config.ssidBias]; omega

/-- What the decoder can have read and what `exec` then does: a form of a format, with the bytes it is made of, or the suffix. -/
theorem exec_decoded_header {bs rest : List Byte} {i : Instr} (h : decodeHeader bs = .ok (i, rest)) :
    ∃ b0 id, bs.head? = some b0 ∧ decodeId b0 bs.tail = .ok (id, bs.drop (idWidth id).toNat) ∧
      bs.length = (idWidth id).toNat + Config.mhLen (fmtOf b0) + rest.length ∧
      ((∃ m : MessageHeader, fmtOf b0 ≠ 3 ∧
          (fmtOf b0 = 0 → m.timestampDelta = 0) ∧ (fmtOf b0 = 1 → m.timestamp = 0 ∧ m.messageStreamID = 0) ∧
          (fmtOf b0 = 2 → m.timestamp = 0 ∧ m.messageLength = 0 ∧ m.messageTypeID = 0 ∧ m.messageStreamID = 0) ∧
          m.timestamp.toNat ≤ Config.S ∧ m.timestampDelta.toNat ≤ Config.S ∧
          ∀ s : State, exec i s = .next (s.afterMessage
            (headerResult (fmtOf b0) (idOf id) m (idWidth id) (BitVec.ofNat 4 (Config.mhLen (fmtOf b0)))))) ∨
       (fmtOf b0 = 3 ∧ ∀ s : State, exec i s = .next (s.inheritMessage (idOf id) (idWidth id)))) := by
  obtain ⟨b0, bs', id, mid, rfl, h1, h2⟩ := decodeHeader_cases h
  have hlen : (b0 :: bs').length = (idWidth id).toNat + mid.length ∧ (b0 :: bs').drop (idWidth id).toNat = mid := by
    rcases decodeId_cases h1 with ⟨-, x, rfl, rfl⟩ | ⟨-, x, y, rfl, rfl⟩ | ⟨-, -, rfl, rfl⟩ <;> simp [idWidth] <;> omega
  refine ⟨b0, id, rfl, by simpa [hlen.2] using h1, ?_, ?_⟩
  · rw [hlen.1]
    rcases decodeMessage_cases h2 with ⟨hf, _, _, _, _, _, _, _, _, _, _, _, rfl, rfl⟩ |
      ⟨hf, _, _, _, _, _, _, _, rfl, rfl⟩ | ⟨hf, _, _, _, rfl, rfl⟩ | ⟨hf, rfl, rfl⟩ <;>
      simp [hf, Config.mhLen] <;> omega
  · have lt : ∀ v : U24, v.toNat ≤ Config.S := fun v => by have := v.isLt; simp only [Config.S]; omega
    rcases decodeMessage_cases h2 with ⟨hf, t0, t1, t2, l0, l1, l2, y, m0, m1, m2, m3, rfl, rfl⟩ |
      ⟨hf, d0, d1, d2, l0, l1, l2, y, rfl, rfl⟩ | ⟨hf, d0, d1, d2, rfl, rfl⟩ | ⟨hf, rfl, rfl⟩
    · refine .inl ⟨message0 (ub24 t0 t1 t2) (ub24 l0 l1 l2) y (ul32 m0 m1 m2 m3), by simp [hf], ?_⟩
      simp [hf, message0, lt, exec_mkCh0, Config.mhLen]
    · refine .inl ⟨message1 (ub24 d0 d1 d2) (ub24 l0 l1 l2) y, by simp [hf], ?_⟩
      simp [hf, message1, lt, exec_mkCh1, Config.mhLen]
    · refine .inl ⟨message2 (ub24 d0 d1 d2), by simp [hf], ?_⟩
      simp [hf, message2, lt, exec_mkCh2, Config.mhLen]
    · exact .inr ⟨hf, fun s => exec_mkCh3 id s⟩

end Sys2Proof.Machine
end

