-- ==== Sys2Proof/Laws/PerInstr.lean ====
section
/-! SUPPORT. Statements about every instruction as syntax, one lemma per constructor. -/

/-- R69, R75, R192, R79: a form takes the bytes of its basic header and those of its format's message header, the suffix takes
four, a port operation has none. -/
def Sys2Proof.Laws.WireLength.Statement (i : Instr) : Prop :=
  match i.form with
  | some f => ∃ bs, encode i = some bs ∧ bs.length = f.width + Config.mhLen f.fmt
  | none => ∀ bs, encode i = some bs → bs.length = Config.xtsLen

namespace Sys2Proof.Laws.WireLength

theorem ch0b1 (cs : BitVec 6) (t l : U24) (y : Byte) (m : U32) : Statement (.ch0b1 cs t l y m) := ⟨_, rfl, rfl⟩

theorem ch0b2 (i : BitVec 8) (t l : U24) (y : Byte) (m : U32) : Statement (.ch0b2 i t l y m) := ⟨_, rfl, rfl⟩

theorem ch0b3 (i : BitVec 16) (t l : U24) (y : Byte) (m : U32) : Statement (.ch0b3 i t l y m) := ⟨_, rfl, rfl⟩

theorem ch1b1 (cs : BitVec 6) (d l : U24) (y : Byte) : Statement (.ch1b1 cs d l y) := ⟨_, rfl, rfl⟩

theorem ch1b2 (i : BitVec 8) (d l : U24) (y : Byte) : Statement (.ch1b2 i d l y) := ⟨_, rfl, rfl⟩

theorem ch1b3 (i : BitVec 16) (d l : U24) (y : Byte) : Statement (.ch1b3 i d l y) := ⟨_, rfl, rfl⟩

theorem ch2b1 (cs : BitVec 6) (d : U24) : Statement (.ch2b1 cs d) := ⟨_, rfl, rfl⟩

theorem ch2b2 (i : BitVec 8) (d : U24) : Statement (.ch2b2 i d) := ⟨_, rfl, rfl⟩

theorem ch2b3 (i : BitVec 16) (d : U24) : Statement (.ch2b3 i d) := ⟨_, rfl, rfl⟩

theorem ch3b1 (cs : BitVec 6) : Statement (.ch3b1 cs) := ⟨_, rfl, rfl⟩

theorem ch3b2 (i : BitVec 8) : Statement (.ch3b2 i) := ⟨_, rfl, rfl⟩

theorem ch3b3 (i : BitVec 16) : Statement (.ch3b3 i) := ⟨_, rfl, rfl⟩

theorem xts (e : U32) : Statement (.xts e) := by rintro _ ⟨⟩; rfl

theorem enc (h : EncOperand) : Statement (.enc h) := nofun

theorem dec : Statement .dec := nofun

theorem hpush (h : ChunkHeader) : Statement (.hpush h) := nofun

theorem hclr : Statement .hclr := nofun

theorem reset : Statement .reset := nofun

end Sys2Proof.Laws.WireLength
end

