-- ==== Sys2Proof/Tests/Slice0.lean ====
section
/-! SUPPORT. Tests of the model on values of the spec (`95_test_vectors.md`, `opcode_table.json`, `44_chunk_header_forms.md`),
and for every statement with hypotheses a witness that meets them. -/

namespace Sys2Proof.Tests

open Sys2Proof Sys2Proof.Machine Sys2Proof.Claims

/-! ### Helpers -/

/-- The machine answers a next state that passes the check. -/
def answers (r : Result) (check : State → Bool) : Bool :=
  match r with
  | .next t => check t
  | .fault _ => false
  | .refused _ => false

/-- The machine refuses for this reason. -/
def refuses (r : Result) (why : Refusal) : Bool :=
  match r with
  | .next _ => false
  | .fault _ => false
  | .refused x => x == why

/-- A header without extension. -/
def hdr (f : BitVec 2) (id ts tsd : U32) (len : U24) (typ : Byte) (msid : U32) : ChunkHeader :=
  ⟨⟨f, id⟩, ⟨ts, tsd, len, typ, msid⟩, false, 0⟩

/-- An ENC operand without extension. -/
def opnd (f : BitVec 8) (id ts tsd : U32) (len : U24) (typ : Byte) (msid : U32) : EncOperand :=
  ⟨f, id, ⟨ts, tsd, len, typ, msid⟩, false, 0⟩

/-- After reset, with this history, a DEC has been issued and the source has these answers. -/
def started (hist : List ChunkHeader) (src : List Answer) : State :=
  { State.reset.startDec with hist := hist, src := src }

/-- After reset, with this history, answers and inputs. -/
def placed (hist : List ChunkHeader) (src : List Answer) (inputs : List Input) : State :=
  { State.reset with hist := hist, src := src, inputs := inputs }

/-- Bytes delivered. -/
def bytes (bs : List Byte) : List Answer := bs.map Answer.byte

/-- A whole DEC from `started`: DH and what the source has left. -/
def decGives (hist : List ChunkHeader) (src : List Answer) (k : Status) (h : ChunkHeader) (bh : BitVec 2) (mh : BitVec 4)
    (xts : BitVec 3) (consumed : BitVec 5) (left : List Answer) : Bool :=
  answers (settle 2 (started hist src)) fun t =>
    t.dhValid && t.dh.status == k && t.dh.header == h && t.dh.bhLen == bh && t.dh.mhLen == mh && t.dh.xtsLen == xts &&
      t.dh.consumed == consumed && t.src == left

/-- A whole DEC from `started` that fails: status and `fault_pos`. -/
def decFails (hist : List ChunkHeader) (src : List Answer) (k : Status) (io : Config.IoErr) (pos : BitVec 5) : Bool :=
  answers (settle 2 (started hist src)) fun t =>
    t.dhValid && t.dh.status == k && t.dh.io == io && t.dh.faultPos == pos && t.hist == hist

/-- ENC of an operand gives these bytes. -/
def encGives (h : EncOperand) (bs : List Byte) : Bool :=
  answers (exec (.enc h) State.reset) fun t => t.encStatus == .ok && t.out == bs

/-- ENC of an operand gives this error and no bytes. -/
def encFails (h : EncOperand) (k : Status) : Bool :=
  answers (exec (.enc h) State.reset) fun t => t.encStatus == k && t.out == []

/-! ### WellFormed: the ill-formed term of each check is refused (R71) -/

theorem test_wf_ch0b1_id0 : (Instr.ch0b1 0 0 0 0 0).wf = false := by decide
theorem test_wf_ch0b1_id1 : (Instr.ch0b1 1 0 0 0 0).wf = false := by decide
theorem test_wf_ch1b1_id0 : (Instr.ch1b1 0 0 0 0).wf = false := by decide
theorem test_wf_ch2b1_id1 : (Instr.ch2b1 1 0).wf = false := by decide
theorem test_wf_ch3b1_id0 : (Instr.ch3b1 0).wf = false := by decide
theorem test_wf_ch3b1_id2 : (Instr.ch3b1 2).wf = true := by decide

/-! ### Decoding: the example bytes of `opcode_table.json`, as words numbered as the table numbers them -/

theorem test_word_ch0b1 : decodeTableWord 96 0x0000000114970000E803003F = some (.ch0b1 63 1000 151 20 1) := by decide
theorem test_word_ch0b2 : decodeTableWord 104 0x0000000114970000E803002400 = some (.ch0b2 0x24 1000 151 20 1) := by decide
theorem test_word_ch0b3 : decodeTableWord 112 0x0000000114970000E80300A80301 = some (.ch0b3 0x03A8 1000 151 20 1) := by decide
theorem test_word_ch1b1 : decodeTableWord 64 0x090001002800007F = some (.ch1b1 63 40 256 9) := by decide
theorem test_word_ch1b2 : decodeTableWord 72 0x090001002800002440 = some (.ch1b2 0x24 40 256 9) := by decide
theorem test_word_ch1b3 : decodeTableWord 80 0x09000100280000A80341 = some (.ch1b3 0x03A8 40 256 9) := by decide
theorem test_word_ch2b1 : decodeTableWord 32 0x563412BF = some (.ch2b1 63 0x123456) := by decide
theorem test_word_ch2b2 : decodeTableWord 40 0x5634122480 = some (.ch2b2 0x24 0x123456) := by decide
theorem test_word_ch2b3 : decodeTableWord 48 0x563412A80381 = some (.ch2b3 0x03A8 0x123456) := by decide
theorem test_word_ch3b1 : decodeTableWord 8 0xFF = some (.ch3b1 63) := by decide
theorem test_word_ch3b2 : decodeTableWord 16 0x24C0 = some (.ch3b2 0x24) := by decide
theorem test_word_ch3b3 : decodeTableWord 24 0xA803C1 = some (.ch3b3 0x03A8) := by decide
theorem test_bytes_xts : (decodeSuffix [0x01, 0x31, 0x2D, 0x00]).toOption = some (.xts 20000000, []) := by decide

/-- A word placed at the fetch runs as the first instruction after reset (the example of `CH1.B3`). -/
theorem test_fetch_ch1b3 : answers (step (State.reset.withFetchWord 80 0x09000100280000A80341)) (fun t =>
    t.dh.header == hdr 1 1000 0 40 256 9 0 && t.dh.consumed == 10) = true := by decide

/-! ### DEC (vectors of `95_test_vectors.md`) -/

/-- V1; the payload is left. -/
theorem test_dec_ch0b1 :
    decGives [] (bytes [0x03, 0x00, 0x00, 0x00, 0x00, 0x00, 0x97, 0x14, 0x00, 0x00, 0x00, 0x00] ++ (bytes [0x02, 0x00, 0x07]))
      .ok (hdr 0 3 0 0 151 20 0) 1 11 0 12 (bytes [0x02, 0x00, 0x07]) = true := by decide
/-- T-MH: the stream id is little-endian. -/
theorem test_dec_ch0b1_stream_id :
    decGives [] (bytes [0x03, 0x12, 0x34, 0x56, 0x00, 0x01, 0x00, 0x09, 0x78, 0x56, 0x34, 0x12] ++ [])
      .ok (hdr 0 3 1193046 0 256 9 0x12345678) 1 11 0 12 [] = true := by decide
/-- P2, step 1: the sentinel stays in `ts`, the value is in `ext`. -/
theorem test_dec_ch0b2_ext :
    decGives [] (bytes [0x00, 0x24, 0xFF, 0xFF, 0xFF, 0x00, 0x00, 0x04, 0x09, 0x01, 0x00, 0x00, 0x00, 0x01, 0x31, 0x2D, 0x00] ++ (bytes [0x11]))
      .ok ⟨⟨0, 100⟩, ⟨16777215, 0, 4, 9, 1⟩, true, 20000000⟩ 2 11 4 17 (bytes [0x11]) = true := by decide
/-- T-BH: format 0 behind a 3-byte basic header that is not minimal (R73). -/
theorem test_dec_ch0b3 :
    decGives [] (bytes [0x01, 0x00, 0x00, 0x00, 0x00, 0x00, 0x00, 0x00, 0x00, 0x00, 0x00, 0x00, 0x00, 0x00] ++ [])
      .ok (hdr 0 64 0 0 0 0 0) 3 11 0 14 [] = true := by decide
/-- T-MH: `78` is left unread. -/
theorem test_dec_ch1b1 :
    decGives [] (bytes [0x43, 0x12, 0x34, 0x56, 0x00, 0x01, 0x00, 0x09] ++ (bytes [0x78]))
      .ok (hdr 1 3 0 1193046 256 9 0) 1 7 0 8 (bytes [0x78]) = true := by decide
/-- V6. -/
theorem test_dec_ch1b2 :
    decGives [] (bytes [0x40, 0xFF, 0x00, 0x00, 0x28, 0x00, 0x01, 0x00, 0x09] ++ [])
      .ok (hdr 1 319 0 40 256 9 0) 2 7 0 9 [] = true := by decide
/-- T-BH. -/
theorem test_dec_ch1b3 :
    decGives [] (bytes [0x41, 0x00, 0x00, 0x00, 0x00, 0x01, 0x00, 0x00, 0x02, 0x03] ++ [])
      .ok (hdr 1 64 0 1 2 3 0) 3 7 0 10 [] = true := by decide
/-- T-XTS: one below the sentinel, the four bytes are payload. -/
theorem test_dec_ch2b1_below :
    decGives [] (bytes [0x83, 0xFF, 0xFF, 0xFE] ++ (bytes [0x01, 0x31, 0x2D, 0x00]))
      .ok (hdr 2 3 0 16777214 0 0 0) 1 3 0 4 (bytes [0x01, 0x31, 0x2D, 0x00]) = true := by decide
/-- T-XTS. -/
theorem test_dec_ch2b1_ext :
    decGives [] (bytes [0x83, 0xFF, 0xFF, 0xFF, 0x01, 0x31, 0x2D, 0x00] ++ [])
      .ok ⟨⟨2, 3⟩, ⟨0, 16777215, 0, 0, 0⟩, true, 20000000⟩ 1 3 4 8 [] = true := by decide
/-- V6. -/
theorem test_dec_ch2b2 :
    decGives [] (bytes [0x80, 0x00, 0x12, 0x34, 0x56] ++ [])
      .ok (hdr 2 64 0 1193046 0 0 0) 2 3 0 5 [] = true := by decide
/-- V6. -/
theorem test_dec_ch2b3 :
    decGives [] (bytes [0x81, 0xFF, 0xFF, 0x12, 0x34, 0x56] ++ [])
      .ok (hdr 2 65599 0 1193046 0 0 0) 3 3 0 6 [] = true := by decide
/-- T-MH: the newest entry of the id wins; T-XTS: an entry above the sentinel (the test is for equality). -/
theorem test_dec_ch3b1 :
    decGives [hdr 0 3 1 0 10 1 1, hdr 0 4 2 0 20 2 2, hdr 0 3 3 0 30 3 3] (bytes [0xC3] ++ [])
      .ok (hdr 3 3 3 0 30 3 3) 1 0 0 1 [] = true ∧
    decGives [hdr 0 3 20000000 0 0 0 0] (bytes [0xC3] ++ (bytes [0x01, 0x31]))
      .ok (hdr 3 3 20000000 0 0 0 0) 1 0 0 1 (bytes [0x01, 0x31]) = true := by decide
/-- V8: 0xFF is an ordinary format-3 miss. -/
theorem test_dec_ch3b1_miss : decFails [] (bytes [0xFF]) .noPreviousChunk Config.IoErr.zero 1 = true := by decide
/-- P2, step 3: a copied sentinel makes the decoder read a fresh suffix (R145). -/
theorem test_dec_ch3b2_ext :
    decGives [⟨⟨0, 100⟩, ⟨16777215, 0, 4, 9, 1⟩, true, 20000000⟩] (bytes [0xC0, 0x24, 0x01, 0x31, 0x2D, 0x28] ++ (bytes [0x33]))
      .ok ⟨⟨3, 100⟩, ⟨16777215, 0, 4, 9, 1⟩, true, 20000040⟩ 2 0 4 6 (bytes [0x33]) = true := by decide
/-- T-BH: `00 FF` is 255. -/
theorem test_dec_ch3b3 :
    decGives [hdr 0 319 9 8 7 6 5] (bytes [0xC1, 0x00, 0xFF] ++ [])
      .ok (hdr 3 319 9 8 7 6 5) 3 0 0 3 [] = true := by decide
/-- T-BH: the graceful end, and a basic header cut before the lookup is reached; T-XTS: the suffix one byte short. -/
theorem test_dec_errors :
    decFails [] [.ended] .endOfStream Config.IoErr.zero 0 = true ∧
    decFails [] (bytes [0xC1, 0x00] ++ [.ended]) .endOfStream Config.IoErr.zero 2 = true ∧
    decFails [] (bytes [0x03, 0xFF, 0xFF, 0xFF, 0, 0, 0, 0, 0, 0, 0, 0, 0x01, 0x31, 0x2D] ++ [.ended])
      .endOfStream Config.IoErr.zero 15 = true := by decide
/-- P5, step 3, whatever the failure value; R52. -/
theorem test_dec_io_failure_and_busy :
    (∀ x : Config.IoErr, ∃ t, settle 2 (started [] (bytes [0x83, 0, 0] ++ [.failed x])) = .next t ∧ t.dhValid = true ∧
      t.dh.status = .ioFailure ∧ t.dh.io = x ∧ t.dh.faultPos = 3 ∧ t.hist = []) ∧
    refuses (exec .dec (started [] [])) .decPortBusy = true :=
  ⟨fun _ => ⟨_, rfl, rfl, rfl, rfl, rfl, rfl⟩, by decide⟩

/-! ### ENC -/

/-- V2 (clamped time field); T-XTS (longest header; two large time fields, one suffix); T-BH (id 1 takes the literal 1-byte
form); V5 (ids 319 and 320). -/
theorem test_enc_bytes :
    encGives (opnd 0 3 20000000 0 0 0 0) [0x03, 0xFF, 0xFF, 0xFF, 0, 0, 0, 0, 0, 0, 0, 0, 0x01, 0x31, 0x2D, 0x00] = true ∧
    encGives (opnd 0 65599 4294967295 0 16777215 255 0xDEADBEEF)
      [0x01, 0xFF, 0xFF, 0xFF, 0xFF, 0xFF, 0xFF, 0xFF, 0xFF, 0xFF, 0xEF, 0xBE, 0xAD, 0xDE, 0xFF, 0xFF, 0xFF, 0xFF] = true ∧
    encGives (opnd 1 3 20000000 30000000 1 8 0)
      [0x43, 0xFF, 0xFF, 0xFF, 0x00, 0x00, 0x01, 0x08, 0x01, 0x31, 0x2D, 0x00] = true ∧
    encGives (opnd 2 1 0 7 0 0 0) [0x81, 0x00, 0x00, 0x07] = true ∧
    encGives (opnd 3 319 0 0 0 0 0) [0xC0, 0xFF] = true ∧
    encGives (opnd 3 320 0 0 0 0 0) [0xC1, 0x01, 0x00] = true := by decide

/-- T-MH: a format above 3, and the id checked before it. -/
theorem test_enc_errors :
    encFails (opnd 4 3 0 0 0 0 0) .unknownFormat = true ∧
    encFails (opnd 4 65600 0 0 0 0 0) .invalidSubStreamID = true := by decide

/-! ### HPUSH, HCLR, RESET -/

/-- T-ASM: an id out of range is stored. -/
theorem test_hpush : answers (exec (.hpush (hdr 0 70000 0 0 1 0 0)) (placed [hdr 0 3 0 0 9 0 0] [] [])) (fun t =>
    t.hist == [hdr 0 3 0 0 9 0 0, hdr 0 70000 0 0 1 0 0]) = true := by decide
/-- R159: `cur` stays. -/
theorem test_hclr : answers (exec .hclr { placed [hdr 0 3 0 0 9 0 0] [] [] with cur := 12 }) (fun t =>
    t.hist == [] && t.cur == 12) = true := by decide
/-- R230: a DEC in progress is abandoned. -/
theorem test_reset : answers (exec .reset { started [hdr 0 3 0 0 9 0 0] [] with part := [0x03], p := 1, cur := 13 }) (fun t =>
    t.hist == [] && t.cur == 0 && t.ready && !t.dhValid && t.part == []) = true := by decide

/-! ### Witnesses: states and operands that meet the hypotheses of the statements -/

/-- The bytes of V1 but the first: a DEC that has read `03` is in progress. -/
def midHeader (src : List Answer) (inputs : List Input) : State :=
  { started [] src with part := [0x03], p := 1, cur := 5, inputs := inputs }

/-- A DEC that has read `83 FF FF FF` and one byte of the suffix is in progress. -/
def midSuffix (src : List Answer) (inputs : List Input) : State :=
  { State.reset with
    dh := headerResult 2 3 ⟨0, 16777215, 0, 0, 0⟩ 1 3, dec := .reading .suffix, part := [0x01], p := 5, cur := 5
    src := src, inputs := inputs }

/-- A DEC has ended with V1's header. -/
def afterV1 : State :=
  State.reset.finishDec (headerResult 0 3 ⟨0, 0, 151, 20, 0⟩ 1 11)

theorem witness_inv_midHeader (src : List Answer) (inputs : List Input) : (midHeader src inputs).Inv := by
  refine ⟨⟨.inl rfl, Nat.zero_le _⟩, rfl, rfl, rfl, .inr rfl, ?_⟩
  show 1 ≤ 5
  decide

theorem witness_inv_midSuffix (src : List Answer) (inputs : List Input) : (midSuffix src inputs).Inv := by
  have h : (midSuffix [] []).dh.awaiting :=
    ⟨⟨.inl (by decide), ⟨nofun, nofun, fun _ => ⟨rfl, rfl, rfl, rfl⟩, fun _ => by decide⟩, rfl⟩, by decide⟩
  have h' : (midSuffix [] []).part.length < Config.xtsLen ∧
      (midSuffix [] []).p = (midSuffix [] []).dh.bhLen.toNat + (midSuffix [] []).dh.mhLen.toNat + 1 ∧
      (midSuffix [] []).p ≤ (midSuffix [] []).cur := by decide
  exact ⟨⟨.inl rfl, Nat.zero_le _⟩, rfl, h, h'⟩

theorem witness_inv_afterV1 : { afterV1 with cur := 12 }.Inv := by
  refine ⟨⟨.inl rfl, by decide⟩, rfl, rfl, fun _ => .inl ⟨rfl, ?_, by decide⟩⟩
  refine ⟨⟨.inl (by decide), ⟨fun _ => rfl, nofun, nofun, fun _ => by decide⟩, rfl⟩, rfl, fun _ => rfl, ?_, ?_⟩ <;> decide

theorem witness_inv_failed : { started [] [] with
    dh := { DecResult.cleared with status := .noPreviousChunk, bhLen := 1, faultPos := 1 }, dhValid := true, dec := .idle
    cur := 1 }.Inv := by
  refine ⟨⟨.inl rfl, by decide⟩, rfl, rfl, fun _ => .inr ⟨⟨.inl rfl, by decide, fun _ => by decide⟩, by decide⟩⟩

/-- `StepKeepsInvariant`: a step from a state of the invariant in each phase. -/
theorem witness_StepKeepsInvariant :
    (∃ t, (midHeader (bytes [1, 2]) []).Inv ∧ step (midHeader (bytes [1, 2]) []) = .next t) ∧
    (∃ t, (midSuffix (bytes [1, 2, 3]) []).Inv ∧ step (midSuffix (bytes [1, 2, 3]) []) = .next t) ∧
    ∃ t, ({ afterV1 with cur := 12, inputs := [.op .dec] } : State).Inv ∧
      step { afterV1 with cur := 12, inputs := [.op .dec] } = .next t :=
  ⟨⟨_, witness_inv_midHeader _ _, rfl⟩, ⟨_, witness_inv_midSuffix _ _, rfl⟩, ⟨_, witness_inv_afterV1, rfl⟩⟩

/-- `DecodeOfEncode`: the least and the greatest id field, and the suffix. -/
theorem witness_DecodeOfEncode :
    ((Instr.ch0b1 2 1 2 3 4).wf = true ∧ (encode (.ch0b1 2 1 2 3 4)).isSome = true) ∧
    ((Instr.ch3b1 63).wf = true ∧ (encode (.ch3b1 63)).isSome = true) ∧
    ((Instr.ch2b3 0xFFFF 7).wf = true ∧ (encode (.ch2b3 0xFFFF 7)).isSome = true) ∧
    ((Instr.xts 5).wf = true ∧ (encode (.xts 5)).isSome = true) := by decide

/-- `EncodeOfDecode` and the second clause of `FormTableSelectsOneForm`. -/
theorem witness_EncodeOfDecode :
    decode .header [0xC1, 0, 0xFF, 7] = .ok (.ch3b3 0x00FF, [7]) ∧ decode .suffix [1, 2, 3, 4] = .ok (.xts 0x01020304, []) :=
  ⟨rfl, rfl⟩

/-- `BasicHeaderRoundTrip`: both ends of the ids, and the least canonical 3-byte basic header. -/
theorem witness_BasicHeaderRoundTrip :
    (2 ≤ (2 : U32).toNat ∧ (2 : U32).toNat ≤ 65599) ∧ (2 ≤ (65599 : U32).toNat ∧ (65599 : U32).toNat ≤ 65599) ∧
    (decodeId 0xC1 [1, 0] = .ok (.b3 256, []) ∧ ∀ i, IdField.b3 256 = .b3 i → 256 ≤ i.toNat) ∧
    (decodeId 0xC0 [0] = .ok (.b2 0, []) ∧ ∀ i, IdField.b2 0 = .b3 i → 256 ≤ i.toNat) :=
  ⟨by decide, by decide, ⟨rfl, by rintro _ ⟨⟩; decide⟩, ⟨rfl, nofun⟩⟩

/-- `FirstByte255IsOrdinary`: an entry for another id does not count. -/
theorem witness_FirstByte255IsOrdinary :
    (started [hdr 0 62 1 0 1 1 1] [.byte 0xFF, .ended]).dec = .reading .header ∧
    (started [hdr 0 62 1 0 1 1 1] [.byte 0xFF, .ended]).part = [] ∧
    (started [hdr 0 62 1 0 1 1 1] [.byte 0xFF, .ended]).p = 0 ∧
    histLookup (started [hdr 0 62 1 0 1 1 1] [.byte 0xFF, .ended]).hist 63 = none := by decide

/-- `StepRunsTheInstructionRead`: a form completed behind a byte held, and a host operation beside a waiting decoder. -/
theorem witness_StepRunsTheInstructionRead :
    ((midHeader (bytes [0, 0, 0, 0, 0, 0x97, 0x14, 0, 0, 0, 0] ++ [.ended]) []).dec = .reading .header ∧
      decode .header ((midHeader [] []).part ++ [0, 0, 0, 0, 0, 0x97, 0x14, 0, 0, 0, 0]) = .ok (.ch0b1 3 0 151 20 0, [])) ∧
    ((midHeader [] [.op .reset]).src = [] ∧ (midHeader [] [.op .reset]).inputs = [.op .reset]) ∧
    ((placed [] [] [.op .dec]).dec = .idle ∧ (placed [] [] [.op .dec]).inputs = [.op .dec]) :=
  ⟨⟨rfl, rfl⟩, ⟨rfl, rfl⟩, ⟨rfl, rfl⟩⟩

/-- `DecoderWaits`: one byte short of the form; nothing there; an answer that arrives. -/
theorem witness_DecoderWaits :
    ((midHeader (bytes [0, 0, 0, 0, 0, 0x97, 0x14, 0, 0, 0]) []).dec = .reading .header ∧
      decode .header ((midHeader [] []).part ++ [0, 0, 0, 0, 0, 0x97, 0x14, 0, 0, 0]) = .error .messageHeaderShort) ∧
    ((midHeader [] []).dec = .reading .header ∧ (midHeader [] []).src = [] ∧ (midHeader [] []).inputs = []) ∧
    ((midHeader [] [.answer (.byte 7)]).src = [] ∧ (midHeader [] [.answer (.byte 7)]).inputs = [.answer (.byte 7)]) ∧
    ((placed [] [.byte 1] [.answer .ended]).dec = .idle ∧ (placed [] [.byte 1] [.answer .ended]).inputs = [.answer .ended]) :=
  ⟨⟨rfl, rfl⟩, ⟨rfl, rfl, rfl⟩, ⟨rfl, rfl⟩, ⟨rfl, rfl⟩⟩

/-- `HostReadsAndWrites`: a byte, an answer that is no byte, a write. -/
theorem witness_HostReadsAndWrites :
    ((placed [] [.byte 9] [.hostRead]).dec = .idle ∧ (placed [] [.byte 9] [.hostRead]).src = [.byte 9]) ∧
    ((placed [] [.ended] [.hostRead]).src = [.ended] ∧ ∀ b, Answer.ended ≠ .byte b) ∧
    ((placed [] [] [.hostSend]).dec = .idle ∧ (placed [] [] [.hostSend]).inputs = [.hostSend]) :=
  ⟨⟨rfl, rfl⟩, ⟨rfl, nofun⟩, ⟨rfl, rfl⟩⟩

/-- `HostReadWaitsAndHostWritesBesideDec`: a read with no answer there, and a write beside a decoder that waits. -/
theorem witness_HostReadWaitsAndHostWritesBesideDec :
    ((placed [] [] [.hostRead]).dec = .idle ∧ (placed [] [] [.hostRead]).src = [] ∧
      (placed [] [] [.hostRead]).inputs = [.hostRead]) ∧
    ((midSuffix [] [.hostSend]).dec = .reading .suffix ∧ (midSuffix [] [.hostSend]).src = [] ∧
      (midSuffix [] [.hostSend]).inputs = [.hostSend]) := ⟨⟨rfl, rfl, rfl⟩, ⟨rfl, rfl, rfl⟩⟩

/-- `Format3FormsCopyTheEntry`, each width at the ends of its ids; id 64 in both longer widths. -/
theorem witness_Format3FormsCopyTheEntry :
    histLookup (started [hdr 0 63 1 2 3 4 5] []).hist ((63 : BitVec 6).setWidth 32) = some (hdr 0 63 1 2 3 4 5) ∧
    histLookup (started [hdr 0 64 1 2 3 4 5] []).hist ((0 : BitVec 8).setWidth 32 + 64) = some (hdr 0 64 1 2 3 4 5) ∧
    histLookup (started [hdr 0 64 1 2 3 4 5] []).hist ((0 : BitVec 16).setWidth 32 + 64) = some (hdr 0 64 1 2 3 4 5) ∧
    histLookup (started [hdr 0 65599 1 2 3 4 5] []).hist ((0xFFFF : BitVec 16).setWidth 32 + 64)
      = some (hdr 0 65599 1 2 3 4 5) := by decide

/-- `Format3FormsWithoutEntryFail`, each width. -/
theorem witness_Format3FormsWithoutEntryFail :
    histLookup (started [hdr 0 62 1 2 3 4 5] []).hist ((63 : BitVec 6).setWidth 32) = none ∧
    histLookup (started [hdr 0 65 1 2 3 4 5] []).hist ((0 : BitVec 8).setWidth 32 + 64) = none ∧
    histLookup (started [hdr 0 63 1 2 3 4 5] []).hist ((0xFFFF : BitVec 16).setWidth 32 + 64) = none := by decide

/-- `DecRunsThePseudocode`: an idle decoder with each of the three outcomes. -/
theorem witness_DecRunsThePseudocode :
    (placed [] (bytes [0x83, 1, 2, 3]) []).dec = .idle ∧
    wholeDec [] (bytes [0x83, 1, 2, 3]) = .ok (hdr 2 3 0 0x010203 0 0 0) 1 3 0 [] ∧
    wholeDec [] (bytes [0x83, 0, 0] ++ [.failed Config.IoErr.zero]) = .error .ioFailure Config.IoErr.zero 3 [] ∧
    wholeDec [] (bytes [0x83, 0, 0]) = .waiting 3 := by decide

/-- `NoByteStringIsIllegal`: 18 bytes of each outcome. -/
theorem witness_NoByteStringIsIllegal :
    17 ≤ (List.replicate 17 (0xFF : Byte)).length ∧
    wholeDec [] ((0xC1 :: List.replicate 17 (0xFF : Byte)).map Answer.byte)
      = .error .noPreviousChunk Config.IoErr.zero 3 (bytes (List.replicate 15 0xFF)) ∧
    wholeDec [] ((0x02 :: List.replicate 17 (0 : Byte)).map Answer.byte)
      = .ok (hdr 0 2 0 0 0 0 0) 1 11 0 (bytes (List.replicate 6 0)) := by decide

/-- `DecoderIsNeverRefused` and `EncBesideDec`. -/
theorem witness_DecoderIsNeverRefused :
    (midHeader [.ended] []).dec = .reading .header ∧ (midHeader [.ended] []).src ≠ [] := by decide

/-- `BrokenStreamEndsTheDec`: in a header and in the suffix, `End` and `Fail`, in states of the invariant. -/
theorem witness_BrokenStreamEndsTheDec :
    ((midHeader (bytes [1, 2] ++ [.ended]) []).Inv ∧
      decode .header ((midHeader (bytes [1, 2] ++ [.ended]) []).part ++ [1, 2]) = .error .messageHeaderShort) ∧
    ((midSuffix (bytes [1, 2] ++ [.failed Config.IoErr.zero]) []).Inv ∧
      decode .suffix ((midSuffix (bytes [1, 2] ++ [.failed Config.IoErr.zero]) []).part ++ [1, 2]) = .error .suffixShort) :=
  ⟨⟨witness_inv_midHeader _ _, rfl⟩, ⟨witness_inv_midSuffix _ _, rfl⟩⟩

/-- `MissingEntryEndsTheDec`: `C3 End` of T-MH, and the widest basic header. -/
theorem witness_MissingEntryEndsTheDec :
    (started [hdr 0 4 2 0 20 2 2] (bytes [0xC3] ++ [.ended])).dec = .reading .header ∧
    (mkCh3 (.b1 3)).wf = true ∧ encode (mkCh3 (.b1 3)) = some [0xC3] ∧
    histLookup (started [hdr 0 4 2 0 20 2 2] (bytes [0xC3] ++ [.ended])).hist (BitVec.ofNat 32 (idValue (.b1 3))) = none ∧
    (mkCh3 (.b3 0xFFFF)).wf = true ∧ encode (mkCh3 (.b3 0xFFFF)) = some [0xC1, 0xFF, 0xFF] ∧
    histLookup (started [hdr 0 4 2 0 20 2 2] (bytes [0xC1, 0xFF, 0xFF])).hist (BitVec.ofNat 32 (idValue (.b3 0xFFFF))) = none := by
  decide

/-- `HistoryIsUsedByFormat3Only`: two different histories with the same newest message headers. -/
theorem witness_HistoryIsUsedByFormat3Only :
    (∀ id : U32, 2 ≤ id.toNat → id.toNat ≤ 65599 →
      (histLookup [hdr 0 3 9 9 9 9 9, hdr 1 3 1 2 3 4 5] id).map ChunkHeader.message
        = (histLookup [hdr 0 3 1 2 3 4 5] id).map ChunkHeader.message) ∧
    fmtOf 0x83 ≠ 3 := by
  refine ⟨fun id _ _ => ?_, by decide⟩
  by_cases h : 3 = id
  · subst h; rfl
  · have h' : ((3#32 : U32) == id) = false := beq_eq_false_iff_ne.2 h
    have h1 : histLookup [hdr 0 3 9 9 9 9 9, hdr 1 3 1 2 3 4 5] id = none := by simp [histLookup, hdr, List.find?, h']
    have h2 : histLookup [hdr 0 3 1 2 3 4 5] id = none := by simp [histLookup, hdr, List.find?, h']
    rw [h1, h2]

/-- `DecOfEnc`: a format-3 operand whose entry is saturated while it appends a suffix; a format-0 operand that appends one
the decoder does not read; one that appends none. -/
theorem witness_DecOfEnc :
    ((placed [hdr 0 65599 16777215 0 0 0 0] [] []).dec = .idle ∧ (opnd 3 65599 20000000 0 0 0 0).format.toNat ≤ 3 ∧
      histLookup (placed [hdr 0 65599 16777215 0 0 0 0] [] []).hist 65599 = some (hdr 0 65599 16777215 0 0 0 0) ∧
      (decodedMessage (opnd 3 65599 20000000 0 0 0 0) (hdr 0 65599 16777215 0 0 0 0)).timestamp.toNat = 16777215 ∧
      encExt (opnd 3 65599 20000000 0 0 0 0).message = some 20000000) ∧
    ((decodedMessage (opnd 0 2 5 20000000 0 0 0) (hdr 0 0 0 0 0 0 0)).timestamp.toNat ≠ 16777215 ∧
      (decodedMessage (opnd 0 2 5 20000000 0 0 0) (hdr 0 0 0 0 0 0 0)).timestampDelta.toNat ≠ 16777215 ∧
      encExt (opnd 0 2 5 20000000 0 0 0).message = some 20000000) ∧
    encExt (opnd 0 2 16777214 0 0 0 0).message = none := by decide

/-- `NormalHeadersRoundTrip`: V6's header with the extension, and a format-3 header. -/
theorem witness_NormalHeadersRoundTrip :
    (⟨⟨0, 3⟩, ⟨16777215, 0, 0, 0, 0⟩, true, 16777215⟩ : ChunkHeader).normal [] ∧
    (hdr 3 65599 1000 0 151 20 0x01020304).normal [hdr 0 65599 1000 0 151 20 0x01020304] := by
  refine ⟨⟨by decide, by decide, by decide, by decide, by decide, by decide, nofun, fun _ => rfl, nofun, nofun, nofun⟩,
    ⟨by decide, by decide, by decide, by decide, by decide, nofun, fun _ => rfl, nofun, nofun, nofun,
      fun _ => ⟨_, rfl, rfl⟩⟩⟩

/-- `EncErrors`: the least id that fails, and the greatest one that does not with the least format that does. -/
theorem witness_EncErrors :
    65600 ≤ (opnd 4 65600 0 0 0 0 0).subStreamID.toNat ∧
    ((opnd 4 65599 0 0 0 0 0).subStreamID.toNat < 65600 ∧ 3 < (opnd 4 65599 0 0 0 0 0).format.toNat) := by decide

/-- `EncWritesTheseBytes` and `EncMakesAForm`: the greatest id with format 3, the least id, with and without a suffix. -/
theorem witness_EncWritesTheseBytes :
    ((opnd 3 65599 16777215 0 0 0 0).subStreamID.toNat ≤ 65599 ∧ (opnd 3 65599 16777215 0 0 0 0).format.toNat ≤ 3 ∧
      encExt (opnd 3 65599 16777215 0 0 0 0).message = some 16777215) ∧
    (2 ≤ (opnd 0 2 16777214 0 0 0 0).subStreamID.toNat ∧ encExt (opnd 0 2 16777214 0 0 0 0).message = none) ∧
    (opnd 0 0 0 0 0 0 0).subStreamID.toNat ≤ 65599 := by decide

/-- `EncLengths`: 18 bytes and 1 byte. -/
theorem witness_EncLengths :
    (∃ bs, encHeader (opnd 0 65599 16777215 0 0 0 0) = .ok bs ∧ bs.length = 18) ∧
    ∃ bs, encHeader (opnd 3 63 0 0 0 0 0) = .ok bs ∧ bs.length = 1 := ⟨⟨_, rfl, rfl⟩, ⟨_, rfl, rfl⟩⟩

/-- `DecBegins`, `HpushAppends`, `HclrEmpties`: an idle machine with a history; `OverlapIsRefused`: one that is not. -/
theorem witness_ports : ({ afterV1 with hist := [hdr 0 3 1 2 3 4 5] } : State).dec = .idle ∧
    (midSuffix [] []).dec = .reading .suffix := ⟨rfl, rfl⟩

/-- `StepIsRefusedOnlyForOverlap`: each of the cases. -/
theorem witness_StepIsRefusedOnlyForOverlap :
    refuses (step (midHeader [] [.op .dec])) .decPortBusy = true ∧
    refuses (step (midHeader [] [.op (.hpush (hdr 0 3 0 0 0 0 0))])) .histPortBusy = true ∧
    refuses (step (midSuffix [] [.op .hclr])) .histPortBusy = true ∧
    refuses (step (midHeader [] [.hostRead])) .hostReadDuringDec = true := by decide

/-- `OnlyTheHostChangesHist`, `CursorCountsDeliveredBytes`: steps that fall under each of their cases. -/
theorem witness_OnlyTheHostChangesHist :
    answers (step (placed [hdr 0 3 0 0 0 0 0] [] [.op (.hpush (hdr 0 4 0 0 0 0 0))])) (fun t => t.hist.length == 2) = true ∧
    answers (step (placed [hdr 0 3 0 0 0 0 0] [] [.op .hclr])) (fun t => t.hist == []) = true ∧
    answers (step { placed [hdr 0 3 0 0 0 0 0] [.byte 1] [.op .reset] with cur := 9 }) (fun t =>
      t.hist == [] && t.cur == 0 && t.src == [.byte 1]) = true ∧
    answers (step (midHeader (bytes [1, 2] ++ [.ended, .byte 3]) [])) (fun t => t.cur == 7 && t.src == [.byte 3]) = true ∧
    answers (step (midHeader [] [.answer (.byte 3)])) (fun t => t.cur == 5 && t.src == [.byte 3]) = true := by decide

end Sys2Proof.Tests
end

/-! ## ENC's bytes as numbers (O30)

Each part of the header, as a list of numbers, is the arithmetic of `basicBytes`, `messageBytes` and `extBytes`. -/

namespace Sys2Proof.Claims

open Sys2Proof Sys2Proof.Machine

/-! ### Words as the numbers of their bytes (R11) -/

theorem be16_map_toNat (v : BitVec 16) : (be16 v).map BitVec.toNat = [v.toNat / 256, v.toNat % 256] := by
  have := v.isLt
  simp only [be16, List.map_cons, List.map_nil, extract_toNat, List.cons.injEq, and_true]
  omega

theorem be24_map_toNat (v : U24) : (be24 v).map BitVec.toNat = bytes24 v.toNat := by
  have := v.isLt
  simp only [be24, bytes24, List.map_cons, List.map_nil, extract_toNat, List.cons.injEq, and_true]
  omega

theorem be32_map_toNat (v : U32) : (be32 v).map BitVec.toNat = bytes32 v.toNat := by
  have := v.isLt
  simp only [be32, bytes32, List.map_cons, List.map_nil, extract_toNat, List.cons.injEq, and_true]
  omega

theorem le32_eq_reverse_be32 (v : U32) : le32 v = (be32 v).reverse := rfl

theorem le32_map_toNat (v : U32) : (le32 v).map BitVec.toNat = (bytes32 v.toNat).reverse := by
  rw [le32_eq_reverse_be32, List.map_reverse, be32_map_toNat]

/-! ### The three parts of a header -/

/-- R101 to R103: the width is chosen by the id, and within each range the id field does not overflow. -/
theorem bhEnc_map_toNat (f : BitVec 2) {id : U32} (h : id.toNat ≤ 65599) :
    (bhEnc f id).map BitVec.toNat = basicBytes f.toNat id.toNat := by
  by_cases h1 : id.toNat < 64
  · rw [bhEnc_b1 f h1, basicBytes, if_pos h1, bh1, List.map_singleton, byte0_toNat, BitVec.toNat_ofNat,
      Nat.mod_eq_of_lt h1]
  by_cases h2 : id.toNat < 320
  · have hb : id.toNat - 64 < 2 ^ 8 := by omega
    rw [bhEnc_b2 f (Nat.not_lt.1 h1) h2, basicBytes, if_neg h1, if_pos h2, bh2, List.map_cons, List.map_singleton,
      byte0_toNat, BitVec.toNat_ofNat, Nat.mod_eq_of_lt hb]
    rfl
  · have hb : id.toNat - 64 < 2 ^ 16 := by omega
    rw [bhEnc_b3 f (Nat.not_lt.1 h2), basicBytes, if_neg h1, if_neg h2, bh3, List.map_cons, be16_map_toNat,
      byte0_toNat, BitVec.toNat_ofNat, Nat.mod_eq_of_lt hb]
    rfl

/-- R121 to R124, format by format. -/
theorem mhEnc_map_toNat (f : BitVec 2) (m : MessageHeader) :
    (mhEnc f m).map BitVec.toNat = messageBytes f.toNat m := by
  have hf : f = 0 ∨ f = 1 ∨ f = 2 ∨ f = 3 := by revert f; decide
  rcases hf with rfl | rfl | rfl | rfl
  · simp [mhEnc, messageBytes, mh0, be24_map_toNat, le32_map_toNat]
  · simp [mhEnc, messageBytes, mh1, be24_map_toNat]
  · simp [mhEnc, messageBytes, mh2, be24_map_toNat]
  · simp [mhEnc, messageBytes]

/-- R140: the timestamp's suffix, else the delta's, else none. -/
theorem xtsEnc_map_toNat (m : MessageHeader) : (xtsEnc m).map BitVec.toNat = extBytes m := by
  by_cases ht : 16777215 ≤ m.timestamp.toNat
  · rw [xtsEnc_some (encExt_timestamp ht), be32_map_toNat, extBytes, if_pos ht]
  by_cases hd : 16777215 ≤ m.timestampDelta.toNat
  · rw [xtsEnc_some (encExt_delta (Nat.not_le.1 ht) hd), be32_map_toNat, extBytes, if_neg ht, if_pos hd]
  · rw [xtsEnc_none (encExt_none (Nat.not_le.1 ht) (Nat.not_le.1 hd)), extBytes, if_neg ht, if_neg hd, List.map_nil]

/-! ### The whole header and the response -/

/-- A format ENC accepts is not changed by taking its two low bits. -/
theorem extractFormat_toNat {f : BitVec 8} (h : f.toNat ≤ 3) : (f.extractLsb' 0 2).toNat = f.toNat := by
  rw [BitVec.extractLsb'_toNat, Nat.shiftRight_zero, Nat.mod_eq_of_lt (Nat.lt_succ_of_le h)]

theorem encHeader_map_toNat {h : EncOperand} (hid : h.subStreamID.toNat ≤ 65599) (hf : h.format.toNat ≤ 3) :
    ∃ bs, encHeader h = .ok bs ∧ bs.map BitVec.toNat =
      basicBytes h.format.toNat h.subStreamID.toNat ++ messageBytes h.format.toNat h.message ++ extBytes h.message := by
  refine ⟨_, encHeader_ok (Nat.lt_succ_of_le hid) hf, ?_⟩
  rw [List.map_append, List.map_append, bhEnc_map_toNat _ hid, mhEnc_map_toNat, xtsEnc_map_toNat,
    extractFormat_toNat hf]

theorem exec_enc_of_ok {h : EncOperand} {bs : List Byte} (he : encHeader h = .ok bs) (s : State) :
    exec (.enc h) s = .next (s.encRespond h .ok bs) := by
  show execEnc h s = _
  simp only [execEnc, he]

theorem sameDecoder_encRespond (s : State) (h : EncOperand) (k : Status) (bs : List Byte) :
    sameDecoder s (s.encRespond h k bs) := ⟨rfl, rfl, rfl, rfl, rfl, rfl⟩

theorem sameAgents_encRespond (s : State) (h : EncOperand) (k : Status) (bs : List Byte) :
    sameAgents s (s.encRespond h k bs) := ⟨rfl, rfl, rfl⟩

/-- Settles O30: the header is the three parts' bytes in order, and the response touches the encoder's fields alone. -/
theorem encWritesTheseBytes : Obligations.EncWritesTheseBytes := by
  intro s h hid hf
  obtain ⟨bs, he, hbytes⟩ := encHeader_map_toNat hid hf
  exact ⟨_, exec_enc_of_ok he s, rfl, rfl, hbytes, sameDecoder_encRespond s h _ bs, sameAgents_encRespond s h _ bs,
    rfl, rfl⟩

end Sys2Proof.Claims

/-! ## The history port and the lookup (O36 to O38)

HPUSH and HCLR replace HIST and nothing else; the lookup is a `find?` from the newest entry backwards. -/

namespace Sys2Proof.Claims

open Sys2Proof Sys2Proof.Machine

/-! ### What the lookup finds (R157) -/

/-- A hit splits the table at the entry found. `find?` meets the newest entry first, so what it passes over is
`newer` backwards. -/
theorem histLookup_eq_some_iff {hist : List ChunkHeader} {id : U32} {e : ChunkHeader} :
    histLookup hist id = some e ↔
      ∃ older newer, hist = older ++ e :: newer ∧ e.basic.subStreamID = id ∧ ∀ x ∈ newer, x.basic.subStreamID ≠ id := by
  simp only [histLookup, List.find?_eq_some_iff_append, beq_iff_eq, Bool.not_eq_eq_eq_not, Bool.not_true,
    beq_eq_false_iff_ne]
  constructor
  · rintro ⟨hid, newer, older, hsplit, hnewer⟩
    refine ⟨older.reverse, newer.reverse, ?_, hid, by simpa using hnewer⟩
    simpa using congrArg List.reverse hsplit
  · rintro ⟨older, newer, rfl, hid, hnewer⟩
    exact ⟨hid, newer.reverse, older.reverse, by simp, by simpa using hnewer⟩

theorem histLookup_eq_none_iff {hist : List ChunkHeader} {id : U32} :
    histLookup hist id = none ↔ ∀ x ∈ hist, x.basic.subStreamID ≠ id := by
  simp [histLookup]

/-- Settles O38: both outcomes of the scan from the newest entry backwards. -/
theorem lookupFindsTheNewest : Obligations.LookupFindsTheNewest :=
  fun _ _ => ⟨fun _ => histLookup_eq_some_iff, histLookup_eq_none_iff⟩

/-! ### HPUSH and HCLR on an idle machine (R158, R159) -/

theorem exec_hpush_of_idle {s : State} (hs : s.dec = .idle) (h : ChunkHeader) :
    exec (.hpush h) s = .next (s.withHist (s.hist ++ [h])) := if_pos ((ready_iff s).2 hs)

theorem exec_hclr_of_idle {s : State} (hs : s.dec = .idle) : exec .hclr s = .next (s.withHist []) :=
  if_pos ((ready_iff s).2 hs)

theorem sameEncoder_withHist (s : State) (hist : List ChunkHeader) : sameEncoder s (s.withHist hist) := ⟨rfl, rfl, rfl⟩

theorem sameDecoder_withHist (s : State) (hist : List ChunkHeader) : sameDecoder s (s.withHist hist) :=
  ⟨rfl, rfl, rfl, rfl, rfl, rfl⟩

theorem sameAgents_withHist (s : State) (hist : List ChunkHeader) : sameAgents s (s.withHist hist) := ⟨rfl, rfl, rfl⟩

/-- Settles O36: HIST grows by the operand, which the lookup then meets first; the frame is that of `withHist`. -/
theorem hpushAppends : Obligations.HpushAppends := by
  intro s h hs
  refine ⟨_, exec_hpush_of_idle hs h, withHist_hist s _, fun id => ?_, sameEncoder_withHist s _,
    sameDecoder_withHist s _, sameAgents_withHist s _, withHist_cur s _⟩
  rw [withHist_hist, histLookup_append]
  exact if_congr eq_comm rfl rfl

/-- Settles O37: HIST becomes the empty table, where no lookup finds an entry; the frame is that of `withHist`. -/
theorem hclrEmpties : Obligations.HclrEmpties := by
  intro s hs
  exact ⟨_, exec_hclr_of_idle hs, withHist_hist s _, histLookup_nil, sameEncoder_withHist s _,
    sameDecoder_withHist s _, sameAgents_withHist s _, withHist_cur s _⟩

end Sys2Proof.Claims

/-! ## ENC's errors (O29)

Both errors answer alike (R209): the error's status, no byte, and nothing but the encoder's fields touched. Which error it
is, the order of the two checks decides (R207). -/

namespace Sys2Proof.Claims

open Sys2Proof Sys2Proof.Machine

theorem exec_enc_of_error {h : EncOperand} {e : EncError} (he : encHeader h = .error e) (s : State) :
    exec (.enc h) s = .next (s.encRespond h e.status []) := by
  show execEnc h s = _
  simp only [execEnc, he]

/-- R209 for either error. -/
theorem exec_enc_error_response {h : EncOperand} {e : EncError} (he : encHeader h = .error e) (s : State) :
    ∃ u, exec (.enc h) s = .next u ∧ u.encStatus = e.status ∧ u.out = [] ∧ u.outLen = 0 ∧ u.eh = h ∧
      sameDecoder s u ∧ sameAgents s u ∧ u.cur = s.cur ∧ u.hist = s.hist :=
  ⟨_, exec_enc_of_error he s, encRespond_encStatus s h _ _, encRespond_out s h _ _, rfl, encRespond_eh s h _ _,
    sameDecoder_encRespond s h _ _, sameAgents_encRespond s h _ _, encRespond_cur s h _ _, encRespond_hist s h _ _⟩

/-- Settles O29: the id is checked before the format, and either failure has the one response of R209. -/
theorem encErrors : Obligations.EncErrors := by
  intro s h
  constructor
  · intro hid
    exact exec_enc_error_response (encHeader_badId hid) s
  · intro hid hf
    exact exec_enc_error_response (encHeader_badFormat hid hf) s

end Sys2Proof.Claims

/-! ## RESET (O1)

RESET has one answer in every state, `resetCodec`, whose fields the laws of the state give. The state right after reset is
the one RESET leads to from itself, so the same laws speak of it. -/

namespace Sys2Proof.Claims

open Sys2Proof Sys2Proof.Machine

theorem exec_reset (s : State) : exec .reset s = .next s.resetCodec := rfl

@[simp] theorem resetCodec_ready (s : State) : s.resetCodec.ready = true := (ready_iff _).2 (resetCodec_dec s)

theorem resetCodec_reset : State.reset.resetCodec = State.reset := rfl

/-- Settles O1: both halves are what `resetCodec` leaves, of any state and of the state right after reset. -/
theorem resetStartsAConnection : Obligations.ResetStartsAConnection := by
  constructor
  · intro s
    exact ⟨s.resetCodec, exec_reset s, resetCodec_hist s, resetCodec_cur s, resetCodec_out s, resetCodec_dec s,
      resetCodec_dhValid s, resetCodec_part s, resetCodec_p s, resetCodec_ready s, resetCodec_src s⟩
  · rw [← resetCodec_reset]
    exact ⟨resetCodec_hist _, resetCodec_cur _, resetCodec_out _, resetCodec_ready _⟩

end Sys2Proof.Claims

/-! ## The wire forms (O5 to O8, O10)

A form is an id field with a message part behind it: the three widths and the four formats are independent. Encoder and
decoder are inverse on each of the two parts, and so on the twelve forms. -/

namespace Sys2Proof.Claims

open Sys2Proof Sys2Proof.Machine

/-! ### The two parts of a form -/

/-- What stands behind the basic header of a form, by format (R63 to R66). -/
inductive Body where
  | f0 (t l : U24) (y : Byte) (m : U32)
  | f1 (d l : U24) (y : Byte)
  | f2 (d : U24)
  | f3

/-- The format of a message part. -/
def Body.fmt : Body → BitVec 2
  | .f0 .. => 0
  | .f1 .. => 1
  | .f2 .. => 2
  | .f3 => 3

/-- The bytes of a message part. -/
def Body.bytes : Body → List Byte
  | .f0 t l y m => mh0 t l y m
  | .f1 d l y => mh1 d l y
  | .f2 d => mh2 d
  | .f3 => []

/-- The form with this message part and this id field. -/
def Body.form (id : IdField) : Body → Instr
  | .f0 t l y m => mkCh0 t l y m id
  | .f1 d l y => mkCh1 d l y id
  | .f2 d => mkCh2 d id
  | .f3 => mkCh3 id

/-- The basic header with this id field (R101 to R103). -/
def idBytes (f : BitVec 2) : IdField → List Byte
  | .b1 cs => bh1 f cs
  | .b2 i => bh2 f i
  | .b3 i => bh3 f i

/-- The id field is none of the markers (R71). -/
def idWf : IdField → Bool
  | .b1 cs => wfId cs
  | .b2 _ => true
  | .b3 _ => true

/-- The bytes of a form. -/
def formBytes (id : IdField) (b : Body) : List Byte := idBytes b.fmt id ++ b.bytes

@[simp] theorem form_wf (id : IdField) (b : Body) : (b.form id).wf = idWf id := by
  cases b <;> cases id <;> rfl

@[simp] theorem form_part (id : IdField) (b : Body) : (b.form id).part = .header := by
  cases b <;> cases id <;> rfl

theorem form_form (id : IdField) (b : Body) : (b.form id).form = some ⟨b.fmt, (idWidth id).toNat⟩ := by
  cases b <;> cases id <;> rfl

theorem encode_form (id : IdField) (b : Body) : encode (b.form id) = some (formBytes id b) := by
  cases b <;> cases id <;> rfl

@[simp] theorem idBytes_length (f : BitVec 2) (id : IdField) : (idBytes f id).length = (idWidth id).toNat := by
  cases id <;> rfl

@[simp] theorem body_bytes_length (b : Body) : b.bytes.length = Config.mhLen b.fmt := by
  cases b <;> rfl

theorem formBytes_length (id : IdField) (b : Body) :
    (formBytes id b).length = (idWidth id).toNat + Config.mhLen b.fmt := by
  simp [formBytes]

theorem idWidth_pos (id : IdField) : 1 ≤ (idWidth id).toNat := by cases id <;> simp [idWidth]

theorem mhLen_le (f : BitVec 2) : Config.mhLen f ≤ 11 := by revert f; decide

theorem wfId_iff {cs : BitVec 6} : wfId cs = true ↔ cs ≠ Config.mark2 ∧ cs ≠ Config.mark3 := by
  simp [wfId]

/-- Only the twelve forms and the suffix have bytes (R79). -/
theorem encode_cases {i : Instr} {bs : List Byte} (h : encode i = some bs) :
    (∃ id b, i = Body.form id b ∧ bs = formBytes id b) ∨ ∃ e, i = .xts e ∧ bs = be32 e := by
  have form (id : IdField) (b : Body) (hb : encode (b.form id) = some bs) :
      ∃ id' b', b.form id = Body.form id' b' ∧ bs = formBytes id' b' :=
    ⟨id, b, rfl, by rw [encode_form] at hb; exact (Option.some.inj hb).symm⟩
  cases i with
  | ch0b1 cs t l y m => exact .inl (form (.b1 cs) (.f0 t l y m) h)
  | ch0b2 i t l y m => exact .inl (form (.b2 i) (.f0 t l y m) h)
  | ch0b3 i t l y m => exact .inl (form (.b3 i) (.f0 t l y m) h)
  | ch1b1 cs d l y => exact .inl (form (.b1 cs) (.f1 d l y) h)
  | ch1b2 i d l y => exact .inl (form (.b2 i) (.f1 d l y) h)
  | ch1b3 i d l y => exact .inl (form (.b3 i) (.f1 d l y) h)
  | ch2b1 cs d => exact .inl (form (.b1 cs) (.f2 d) h)
  | ch2b2 i d => exact .inl (form (.b2 i) (.f2 d) h)
  | ch2b3 i d => exact .inl (form (.b3 i) (.f2 d) h)
  | ch3b1 cs => exact .inl (form (.b1 cs) .f3 h)
  | ch3b2 i => exact .inl (form (.b2 i) .f3 h)
  | ch3b3 i => exact .inl (form (.b3 i) .f3 h)
  | xts e => exact .inr ⟨e, rfl, (Option.some.inj h).symm⟩
  | enc _ => cases h
  | dec => cases h
  | hpush _ => cases h
  | hclr => cases h
  | reset => cases h

/-! ### The decoder reads what the encoder wrote -/

/-- Byte 0 of a basic header names its format and its width, and the id field is read back. -/
theorem idBytes_decode (f : BitVec 2) {id : IdField} (h : idWf id = true) :
    ∃ b0 tl, idBytes f id = b0 :: tl ∧ fmtOf b0 = f ∧ widthOf b0 = (idWidth id).toNat ∧
      ∀ rest, decodeId b0 (tl ++ rest) = .ok (id, rest) := by
  cases id with
  | b1 cs =>
    obtain ⟨h2, h3⟩ := wfId_iff.1 h
    exact ⟨_, [], rfl, by simp, by simp [widthOf, h2, h3, idWidth], fun rest => by simp [decodeId, h2, h3]⟩
  | b2 i => exact ⟨_, [i], rfl, by simp, by simp [widthOf, idWidth], fun rest => by simp [decodeId]⟩
  | b3 i =>
    exact ⟨_, be16 i, rfl, by simp, by simp [widthOf, Config.mark2, Config.mark3, idWidth],
      fun rest => by simp [decodeId, Config.mark2, Config.mark3, be16]⟩

theorem decodeMessage_bytes (id : IdField) (b : Body) (rest : List Byte) :
    decodeMessage b.fmt id (b.bytes ++ rest) = .ok (b.form id, rest) := by
  cases b <;> simp [decodeMessage, Body.fmt, Body.bytes, Body.form, mh0, mh1, mh2, be24, le32]

theorem decodeHeader_formBytes {id : IdField} (h : idWf id = true) (b : Body) (rest : List Byte) :
    decodeHeader (formBytes id b ++ rest) = .ok (b.form id, rest) := by
  obtain ⟨b0, tl, hb, hf, -, hd⟩ := idBytes_decode b.fmt h
  simp [formBytes, hb, decodeHeader, hd, hf, decodeMessage_bytes]

theorem decodeSuffix_be32 (e : U32) (rest : List Byte) : decodeSuffix (be32 e ++ rest) = .ok (.xts e, rest) := by
  simp [be32, decodeSuffix]

/-- Settles O5: a wire instruction is a form or the suffix, and either is read back from its bytes. -/
theorem decodeOfEncode : Obligations.DecodeOfEncode := by
  intro i bs rest hwf henc
  obtain ⟨id, b, rfl, rfl⟩ | ⟨e, rfl, rfl⟩ := encode_cases henc
  · rw [form_wf] at hwf
    simpa [decode] using decodeHeader_formBytes hwf b rest
  · exact decodeSuffix_be32 e rest

/-! ### What the decoder read is what the encoder writes -/

theorem decodeId_inv {b0 : Byte} {bs rest : List Byte} {id : IdField} (h : decodeId b0 bs = .ok (id, rest)) :
    idWf id = true ∧ b0 :: bs = idBytes (fmtOf b0) id ++ rest := by
  obtain ⟨h2, i, rfl, rfl⟩ | ⟨h3, hi, lo, rfl, rfl⟩ | ⟨h2, h3, rfl, rfl⟩ := decodeId_cases h
  · exact ⟨rfl, by simp [idBytes, bh2, ← h2]⟩
  · exact ⟨rfl, by simp [idBytes, bh3, ← h3]⟩
  · exact ⟨wfId_iff.2 ⟨h2, h3⟩, by simp [idBytes, bh1]⟩

theorem decodeMessage_inv {f : BitVec 2} {id : IdField} {bs rest : List Byte} {i : Instr}
    (h : decodeMessage f id bs = .ok (i, rest)) : ∃ b : Body, b.fmt = f ∧ i = b.form id ∧ bs = b.bytes ++ rest := by
  obtain ⟨rfl, t0, t1, t2, l0, l1, l2, y, m0, m1, m2, m3, rfl, rfl⟩ | ⟨rfl, d0, d1, d2, l0, l1, l2, y, rfl, rfl⟩ |
    ⟨rfl, d0, d1, d2, rfl, rfl⟩ | ⟨rfl, rfl, rfl⟩ := decodeMessage_cases h
  · exact ⟨.f0 (ub24 t0 t1 t2) (ub24 l0 l1 l2) y (ul32 m0 m1 m2 m3), rfl, rfl, by simp [Body.bytes, mh0]⟩
  · exact ⟨.f1 (ub24 d0 d1 d2) (ub24 l0 l1 l2) y, rfl, rfl, by simp [Body.bytes, mh1]⟩
  · exact ⟨.f2 (ub24 d0 d1 d2), rfl, rfl, by simp [Body.bytes, mh2]⟩
  · exact ⟨.f3, rfl, rfl, rfl⟩

/-- A header is read exactly from the bytes of a form whose id field is no marker. -/
theorem decodeHeader_inv {bs rest : List Byte} {i : Instr} (h : decodeHeader bs = .ok (i, rest)) :
    ∃ id b, idWf id = true ∧ i = Body.form id b ∧ bs = formBytes id b ++ rest := by
  obtain ⟨b0, bs', id, mid, rfl, hid, hm⟩ := decodeHeader_cases h
  obtain ⟨hwf, hbytes⟩ := decodeId_inv hid
  obtain ⟨b, hf, rfl, rfl⟩ := decodeMessage_inv hm
  exact ⟨id, b, hwf, rfl, by rw [hbytes, formBytes, hf, List.append_assoc]⟩

theorem decodeSuffix_inv {bs rest : List Byte} {i : Instr} (h : decodeSuffix bs = .ok (i, rest)) :
    ∃ e, i = .xts e ∧ bs = be32 e ++ rest := by
  obtain ⟨e0, e1, e2, e3, rfl, rfl⟩ := decodeSuffix_cases h
  exact ⟨_, rfl, by simp⟩

/-- Settles O6: each part's inversion gives the operands, and the laws of the bytes put the bytes read together again. -/
theorem encodeOfDecode : Obligations.EncodeOfDecode := by
  intro k bs rest i h
  refine ⟨?_, decode_part h, ?_⟩ <;> cases k
  case refine_1.header =>
    obtain ⟨id, b, hwf, rfl, -⟩ := decodeHeader_inv h
    rwa [form_wf]
  case refine_1.suffix =>
    obtain ⟨e, rfl, -⟩ := decodeSuffix_inv h
    rfl
  case refine_2.header =>
    obtain ⟨id, b, -, rfl, hbs⟩ := decodeHeader_inv h
    exact ⟨_, encode_form id b, hbs⟩
  case refine_2.suffix =>
    obtain ⟨e, rfl, hbs⟩ := decodeSuffix_inv h
    exact ⟨_, rfl, hbs⟩

/-! ### The form table (R75) -/

/-- Mask, match and excluded values of a row say: byte 0 has the row's format and announces the row's width. -/
theorem selects_iff : ∀ r ∈ formRows, ∀ b0 : Byte, r.selects b0 = true ↔ r.form = ⟨fmtOf b0, widthOf b0⟩ := by
  decide

theorem formRows_length : ∀ r ∈ formRows, r.length = r.form.width + Config.mhLen r.form.fmt := by decide

theorem formRows_one_of_form : ∀ f : BitVec 2, ∀ w ∈ [1, 2, 3], (formRows.filter (·.form = ⟨f, w⟩)).length = 1 := by
  decide

theorem widthOf_mem (b0 : Byte) : widthOf b0 ∈ [1, 2, 3] := by
  unfold widthOf
  split_ifs <;> simp

theorem formRows_one_selects (b0 : Byte) : (formRows.filter fun r => r.selects b0).length = 1 := by
  rw [← formRows_one_of_form (fmtOf b0) (widthOf b0) (widthOf_mem b0)]
  congr 1
  exact List.filter_congr fun r hr => by rw [Bool.eq_iff_iff, selects_iff r hr b0, decide_eq_true_iff]

/-- Settles O7: a row selects the bytes with its format and width, and there is one row of each. -/
theorem formTableSelectsOneForm : Obligations.FormTableSelectsOneForm := by
  refine ⟨formRows_one_selects, fun b0 bs rest i h => ?_⟩
  obtain ⟨r, hr⟩ := List.length_eq_one_iff.1 (formRows_one_selects b0)
  obtain ⟨hmem, hsel⟩ := List.mem_filter.1 (hr ▸ List.mem_singleton_self r)
  have hform := (selects_iff r hmem b0).1 hsel
  obtain ⟨id, b, hwf, rfl, hbs⟩ := decodeHeader_inv h
  obtain ⟨b0', tl, hb, hf, hw, -⟩ := idBytes_decode b.fmt hwf
  obtain rfl : b0' = b0 := by
    rw [formBytes, hb] at hbs
    exact (List.cons.inj hbs).1.symm
  refine ⟨r, hmem, hsel, ?_, ?_⟩
  · rw [form_form, hform, hf, hw]
  · rw [hbs, List.length_append, formBytes_length, formRows_length r hmem, hform, hf, hw]

/-! ### The encoder's basic header (R112) -/

/-- The id field the encoder chooses for an id (R100 to R103). -/
def encId (id : U32) : IdField :=
  if id.toNat < 64 then .b1 (BitVec.ofNat 6 id.toNat)
  else if id.toNat < 320 then .b2 (BitVec.ofNat 8 (id.toNat - 64))
  else .b3 (BitVec.ofNat 16 (id.toNat - 64))

theorem encId_b1 {id : U32} (h : id.toNat < 64) : encId id = .b1 (BitVec.ofNat 6 id.toNat) := if_pos h

theorem encId_b2 {id : U32} (h : 64 ≤ id.toNat) (h' : id.toNat < 320) :
    encId id = .b2 (BitVec.ofNat 8 (id.toNat - 64)) :=
  (if_neg (Nat.not_lt.2 h)).trans (if_pos h')

theorem encId_b3 {id : U32} (h : 320 ≤ id.toNat) : encId id = .b3 (BitVec.ofNat 16 (id.toNat - 64)) :=
  (if_neg (show ¬ id.toNat < 64 by omega)).trans (if_neg (Nat.not_lt.2 h))

/-- The three ranges of R100. -/
theorem id_ranges (id : U32) : id.toNat < 64 ∨ (64 ≤ id.toNat ∧ id.toNat < 320) ∨ 320 ≤ id.toNat := by omega

theorem bhEnc_eq (f : BitVec 2) (id : U32) : bhEnc f id = idBytes f (encId id) := by
  obtain h | ⟨h, h'⟩ | h := id_ranges id
  · rw [bhEnc_b1 f h, encId_b1 h, idBytes]
  · rw [bhEnc_b2 f h h', encId_b2 h h', idBytes]
  · rw [bhEnc_b3 f h, encId_b3 h, idBytes]

theorem encId_wf {id : U32} (h : 2 ≤ id.toNat) : idWf (encId id) = true := by
  obtain h1 | ⟨h1, h2⟩ | h1 := id_ranges id
  · rw [encId_b1 h1, idWf, wfId_iff]
    constructor <;> intro he <;> have := congrArg BitVec.toNat he <;>
      simp [Config.mark2, Config.mark3, Nat.mod_eq_of_lt h1] at this <;> omega
  · rw [encId_b2 h1 h2, idWf]
  · rw [encId_b3 h1, idWf]

theorem encId_width (id : U32) :
    (idWidth (encId id)).toNat = if id.toNat < 64 then 1 else if id.toNat < 320 then 2 else 3 := by
  unfold encId
  split_ifs <;> rfl

theorem idOf_toNat (fld : IdField) : (idOf fld).toNat = idValue fld := by
  cases fld
  · exact idB1_toNat _
  · exact idB2_toNat _
  · exact idB3_toNat _

theorem idOf_eq (fld : IdField) : idOf fld = BitVec.ofNat 32 (idValue fld) := by cases fld <;> rfl

/-- The id the encoder wrote is the id its field spells (R107 to R109). -/
theorem idOf_encId {id : U32} (h : id.toNat ≤ 65599) : idOf (encId id) = id := by
  apply BitVec.eq_of_toNat_eq
  rw [idOf_toNat]
  obtain h1 | ⟨h1, h2⟩ | h1 := id_ranges id
  · rw [encId_b1 h1, idValue, BitVec.toNat_ofNat]; omega
  · rw [encId_b2 h1 h2, idValue, BitVec.toNat_ofNat]; omega
  · rw [encId_b3 h1, idValue, BitVec.toNat_ofNat]; omega

/-- A canonical field, one that is not in 3 bytes what 2 bytes can spell, is the one the encoder chooses. -/
theorem encId_idOf {fld : IdField} (h : ∀ i, fld = .b3 i → 256 ≤ i.toNat) : encId (idOf fld) = fld := by
  have hv := idOf_toNat fld
  cases fld with
  | b1 cs =>
    have := cs.isLt
    rw [idValue] at hv
    rw [encId_b1 (by omega), hv, BitVec.ofNat_toNat, BitVec.setWidth_eq]
  | b2 i =>
    have := i.isLt
    rw [idValue] at hv
    rw [encId_b2 (by omega) (by omega), hv, Nat.add_sub_cancel, BitVec.ofNat_toNat, BitVec.setWidth_eq]
  | b3 i =>
    have := h i rfl
    rw [idValue] at hv
    rw [encId_b3 (by omega), hv, Nat.add_sub_cancel, BitVec.ofNat_toNat, BitVec.setWidth_eq]

/-- Settles O8: the encoder chooses an id field, whose basic header reads back as it; and a canonical field is its choice. -/
theorem basicHeaderRoundTrip : Obligations.BasicHeaderRoundTrip := by
  constructor
  · intro f id rest h2 hmax
    obtain ⟨b0, tl, hb, hf, hw, hd⟩ := idBytes_decode f (encId_wf h2)
    refine ⟨b0, tl, encId id, by rw [bhEnc_eq, hb], hf, hd rest, ?_, by rw [bhEnc_eq, idBytes_length, hw]⟩
    rw [← idOf_toNat, idOf_encId hmax]
  · intro b0 bs rest fld h hcanon
    rw [bhEnc_eq, ← idOf_eq, encId_idOf hcanon, (decodeId_inv h).2]

/-- Settles O10: each pattern is read byte by byte. -/
theorem patternsDecode : Obligations.PatternsDecode := by
  unfold Obligations.PatternsDecode
  decide

end Sys2Proof.Claims

/-! ## What ENC makes (O31 to O33)

ENC's output is the bytes of one form, with the suffix behind it where a time field is saturated. -/

namespace Sys2Proof.Claims

open Sys2Proof Sys2Proof.Machine

/-- The message part the encoder makes, by format (R121 to R124). -/
def encBody (f : BitVec 2) (m : MessageHeader) : Body :=
  if f = 0 then .f0 (clamp24 m.timestamp) m.messageLength m.messageTypeID m.messageStreamID
  else if f = 1 then .f1 (clamp24 m.timestampDelta) m.messageLength m.messageTypeID
  else if f = 2 then .f2 (clamp24 m.timestampDelta)
  else .f3

theorem format_cases (f : BitVec 2) : f = 0 ∨ f = 1 ∨ f = 2 ∨ f = 3 := by revert f; decide

@[simp] theorem encBody_fmt (f : BitVec 2) (m : MessageHeader) : (encBody f m).fmt = f := by
  obtain rfl | rfl | rfl | rfl := format_cases f <;> rfl

theorem mhEnc_eq (f : BitVec 2) (m : MessageHeader) : mhEnc f m = (encBody f m).bytes := by
  obtain rfl | rfl | rfl | rfl := format_cases f <;> rfl

/-- The form the encoder makes, without the suffix. -/
def encForm (h : EncOperand) : IdField × Body :=
  (encId h.subStreamID, encBody (h.format.setWidth 2) h.message)

theorem extractFormat_eq (f : BitVec 8) : f.extractLsb' 0 2 = f.setWidth 2 := by
  apply BitVec.eq_of_toNat_eq
  simp

/-- ENC succeeds exactly for the ids and formats it accepts (R207), with the bytes of its form and the suffix. -/
theorem encHeader_eq_ok_iff {h : EncOperand} {bs : List Byte} :
    encHeader h = .ok bs ↔ h.subStreamID.toNat ≤ 65599 ∧ h.format.toNat ≤ 3 ∧
      bs = formBytes (encForm h).1 (encForm h).2 ++ xtsEnc h.message := by
  by_cases hi : h.subStreamID.toNat < 65600
  · by_cases hf : h.format.toNat ≤ 3
    · rw [encHeader_ok hi hf, bhEnc_eq, mhEnc_eq, extractFormat_eq]
      simp [Nat.le_of_lt_succ hi, hf, formBytes, encForm, eq_comm]
    · simp [encHeader_badFormat hi (Nat.not_le.1 hf), hf]
  · simp [encHeader_badId (Nat.not_lt.1 hi), show ¬ h.subStreamID.toNat ≤ 65599 by omega]

theorem exec_enc_form {h : EncOperand} (hid : h.subStreamID.toNat ≤ 65599) (hf : h.format.toNat ≤ 3) (s : State) :
    exec (.enc h) s = .next (s.encRespond h .ok (formBytes (encForm h).1 (encForm h).2 ++ xtsEnc h.message)) :=
  exec_enc_of_ok (encHeader_eq_ok_iff.2 ⟨hid, hf, rfl⟩) s

/-- Settles O31: the form is that of the encoder's id field and message part, the suffix that of the extension test. -/
theorem encMakesAForm : Obligations.EncMakesAForm := by
  intro s h h2 hmax hf
  refine ⟨_, (encForm h).2.form (encForm h).1, _, exec_enc_form hmax hf s, encode_form _ _, ?_, ?_, ?_, ?_⟩
  · rw [form_wf]
    exact encId_wf h2
  · rw [form_form, encForm, encBody_fmt, encId_width]
  · intro hx
    simp [xtsEnc_none hx]
  · intro x hx
    exact ⟨_, rfl, by simp [xtsEnc_some hx]⟩

theorem xtsEnc_length (m : MessageHeader) :
    (xtsEnc m).length = if 16777215 ≤ m.timestamp.toNat ∨ 16777215 ≤ m.timestampDelta.toNat then 4 else 0 := by
  by_cases ht : 16777215 ≤ m.timestamp.toNat
  · rw [xtsEnc_some (encExt_timestamp ht), if_pos (.inl ht)]
    rfl
  by_cases hd : 16777215 ≤ m.timestampDelta.toNat
  · rw [xtsEnc_some (encExt_delta (Nat.not_le.1 ht) hd), if_pos (.inr hd)]
    rfl
  · rw [xtsEnc_none (encExt_none (Nat.not_le.1 ht) (Nat.not_le.1 hd)), if_neg (not_or.2 ⟨ht, hd⟩)]
    rfl

theorem mhLen_toNat : ∀ f : BitVec 2, Config.mhLen f =
    if f.toNat = 0 then 11 else if f.toNat = 1 then 7 else if f.toNat = 2 then 3 else 0 := by
  decide

theorem setWidthFormat_toNat {f : BitVec 8} (h : f.toNat ≤ 3) : (f.setWidth 2).toNat = f.toNat := by
  rw [← extractFormat_eq, extractFormat_toNat h]

/-- Settles O32: each of the three lengths is chosen by one field of the operand. -/
theorem encLengths : Obligations.EncLengths := by
  intro h bs hok
  obtain ⟨-, hf, rfl⟩ := encHeader_eq_ok_iff.1 hok
  rw [List.length_append, formBytes_length, xtsEnc_length, encForm, encBody_fmt, encId_width, mhLen_toNat,
    setWidthFormat_toNat hf]
  refine ⟨rfl, ?_, ?_⟩ <;> split_ifs <;> omega

theorem encHeader_ext (h : EncOperand) (v : Bool) (x : U32) : encHeader { h with extV := v, ext := x } = encHeader h :=
  rfl

/-- Settles O33: the encoder's function has the same value, and the response is made of that value alone. -/
theorem encIgnoresExt : Obligations.EncIgnoresExt := by
  intro s h v x
  obtain ⟨bs, he, -⟩ | ⟨e, he, -⟩ := execEnc_cases h s
  · exact ⟨_, _, exec_enc_of_ok he s, exec_enc_of_ok ((encHeader_ext h v x).trans he) s, rfl, rfl⟩
  · exact ⟨_, _, exec_enc_of_error he s, exec_enc_of_error ((encHeader_ext h v x).trans he) s, rfl, rfl⟩

end Sys2Proof.Claims

/-! ## What a form and the suffix do (O14 to O19)

A form has one meaning for all widths: the message fields are on the wire, or, for format 3, in the history. With them the
decoder goes on after the message header; without them, which format 3 alone can lack, the DEC ends. -/

namespace Sys2Proof.Claims

open Sys2Proof Sys2Proof.Machine

/-! ### The message fields a form gives -/

/-- The message header that a form of sub-stream `id` gives on a history; format 3 gives none without an entry (R127 to
R131). -/
def Body.message (hist : List ChunkHeader) (id : U32) : Body → Option MessageHeader
  | .f0 t l y m => some (message0 t l y m)
  | .f1 d l y => some (message1 d l y)
  | .f2 d => some (message2 d)
  | .f3 => (histLookup hist id).map ChunkHeader.message

/-- DH after the basic and the message header of a form. -/
def formResult (id : IdField) (b : Body) (m : MessageHeader) : DecResult :=
  headerResult b.fmt (idOf id) m (idWidth id) (BitVec.ofNat 4 (Config.mhLen b.fmt))

theorem exec_form_some {s : State} {id : IdField} {b : Body} {m : MessageHeader}
    (h : b.message s.hist (idOf id) = some m) : exec (b.form id) s = .next (s.afterMessage (formResult id b m)) := by
  cases b with
  | f0 t l y m' => cases h; exact exec_mkCh0 t l y m' id s
  | f1 d l y => cases h; exact exec_mkCh1 d l y id s
  | f2 d => cases h; exact exec_mkCh2 d id s
  | f3 =>
    obtain ⟨e, he, rfl⟩ := Option.map_eq_some_iff.1 h
    rw [Body.form, exec_mkCh3, inheritMessage_some _ he]
    rfl

theorem exec_form_none {s : State} {id : IdField} {b : Body} (h : b.message s.hist (idOf id) = none) :
    exec (b.form id) s =
      .next (s.raiseDec .noPreviousChunk Config.IoErr.zero { DecResult.cleared with bhLen := idWidth id }) := by
  cases b with
  | f0 t l y m' => cases h
  | f1 d l y => cases h
  | f2 d => cases h
  | f3 => rw [Body.form, exec_mkCh3, inheritMessage_none _ (Option.map_eq_none_iff.1 h)]

/-- Only format 3 looks at the history. -/
theorem message_eq_none {hist : List ChunkHeader} {id : U32} {b : Body} (h : b.message hist id = none) : b = .f3 := by
  cases b with
  | f3 => rfl
  | f0 t l y m' => cases h
  | f1 d l y => cases h
  | f2 d => cases h

@[simp] theorem formResult_mhLen_toNat (id : IdField) (b : Body) (m : MessageHeader) :
    (formResult id b m).mhLen.toNat = Config.mhLen b.fmt := by
  have := mhLen_le b.fmt
  show (BitVec.ofNat 4 (Config.mhLen b.fmt)).toNat = _
  rw [BitVec.toNat_ofNat, Nat.mod_eq_of_lt (by omega)]

/-- The three part lengths are too small to overflow `consumed` (R154). -/
theorem total_toNat (d : DecResult) : d.total.toNat = d.bhLen.toNat + d.mhLen.toNat + d.xtsLen.toNat := by
  have := d.bhLen.isLt
  have := d.mhLen.isLt
  have := d.xtsLen.isLt
  simp only [DecResult.total, BitVec.toNat_add, BitVec.toNat_setWidth]
  omega

theorem saturated_iff {m : MessageHeader} : saturated m ↔ sentinel m = true := by
  simp [saturated, sentinel, Config.S]

/-! ### The forms complete (R143, R153) -/

theorem formDecoded_afterMessage (s : State) (id : IdField) (b : Body) (m : MessageHeader) :
    formDecoded s (s.afterMessage (formResult id b m)) b.fmt (idValue id) m (idWidth id).toNat (Config.mhLen b.fmt) := by
  obtain ⟨hs, h⟩ | ⟨hs, h⟩ := afterMessage_cases s (formResult id b m) <;> rw [h]
  · have hsat : saturated m := saturated_iff.2 hs
    exact ⟨rfl, idOf_toNat id, rfl, rfl, formResult_mhLen_toNat id b m, rfl, rfl, rfl, fun _ => ⟨rfl, rfl, rfl, rfl⟩,
      fun hn => absurd hsat hn, ⟨rfl, rfl, rfl⟩, ⟨rfl, rfl, rfl⟩, rfl, rfl, rfl⟩
  · have hsat : ¬ saturated m := fun hm => Bool.false_ne_true (hs.symm.trans (saturated_iff.1 hm))
    refine ⟨rfl, idOf_toNat id, rfl, rfl, formResult_mhLen_toNat id b m, rfl, rfl, rfl, fun hy => absurd hy hsat,
      fun _ => ⟨rfl, rfl, rfl, ?_, rfl, rfl⟩, ⟨rfl, rfl, rfl⟩, ⟨rfl, rfl, rfl⟩, rfl, rfl, rfl⟩
    show (formResult id b m).total.toNat = _
    rw [total_toNat, formResult_mhLen_toNat]
    rfl

/-- A form whose message fields are there completes, in every state. -/
theorem exec_form_decoded {s : State} {id : IdField} {b : Body} {m : MessageHeader}
    (h : b.message s.hist (idOf id) = some m) :
    ∃ u, exec (b.form id) s = .next u ∧
      formDecoded s u b.fmt (idValue id) m (idWidth id).toNat (Config.mhLen b.fmt) :=
  ⟨_, exec_form_some h, formDecoded_afterMessage s id b m⟩

theorem timeOf_eq (v : U24) : timeOf v = v.setWidth 32 := by
  apply BitVec.eq_of_toNat_eq
  have := v.isLt
  rw [timeOf_toNat, BitVec.toNat_setWidth]; omega

/-- Settles O14: format 0 has its fields on the wire, whatever the id field. -/
theorem format0FormsDecode : Obligations.Format0FormsDecode := by
  intro s t l y m
  have form (id : IdField) : ∃ u, exec (mkCh0 t l y m id) s = .next u ∧
      formDecoded s u 0 (idValue id) ⟨t.setWidth 32, 0, l, y, m⟩ (idWidth id).toNat 11 :=
    exec_form_decoded (b := .f0 t l y m) (by rw [← timeOf_eq]; rfl)
  exact ⟨fun cs => form (.b1 cs), fun i => form (.b2 i), fun i => form (.b3 i)⟩

/-- Settles O15: format 1 has its fields on the wire, whatever the id field. -/
theorem format1FormsDecode : Obligations.Format1FormsDecode := by
  intro s d l y
  have form (id : IdField) : ∃ u, exec (mkCh1 d l y id) s = .next u ∧
      formDecoded s u 1 (idValue id) ⟨0, d.setWidth 32, l, y, 0⟩ (idWidth id).toNat 7 :=
    exec_form_decoded (b := .f1 d l y) (by rw [← timeOf_eq]; rfl)
  exact ⟨fun cs => form (.b1 cs), fun i => form (.b2 i), fun i => form (.b3 i)⟩

/-- Settles O16: format 2 has its field on the wire, whatever the id field. -/
theorem format2FormsDecode : Obligations.Format2FormsDecode := by
  intro s d
  have form (id : IdField) : ∃ u, exec (mkCh2 d id) s = .next u ∧
      formDecoded s u 2 (idValue id) ⟨0, d.setWidth 32, 0, 0, 0⟩ (idWidth id).toNat 3 :=
    exec_form_decoded (b := .f2 d) (by rw [← timeOf_eq]; rfl)
  exact ⟨fun cs => form (.b1 cs), fun i => form (.b2 i), fun i => form (.b3 i)⟩

/-! ### Format 3 (R130, R131) -/

theorem idOf_b1 (cs : BitVec 6) : idOf (.b1 cs) = cs.setWidth 32 := by
  apply BitVec.eq_of_toNat_eq
  have := cs.isLt
  rw [idOf_toNat, idValue, BitVec.toNat_setWidth]; omega

theorem idOf_b2 (i : BitVec 8) : idOf (.b2 i) = i.setWidth 32 + 64 := by
  apply BitVec.eq_of_toNat_eq
  have := i.isLt
  have h64 : (64 : U32).toNat = 64 := rfl
  rw [idOf_toNat, idValue, BitVec.toNat_add, BitVec.toNat_setWidth, h64]; omega

theorem idOf_b3 (i : BitVec 16) : idOf (.b3 i) = i.setWidth 32 + 64 := by
  apply BitVec.eq_of_toNat_eq
  have := i.isLt
  have h64 : (64 : U32).toNat = 64 := rfl
  rw [idOf_toNat, idValue, BitVec.toNat_add, BitVec.toNat_setWidth, h64]; omega

/-- Settles O17: the message fields of format 3 are those of the entry. -/
theorem format3FormsCopyTheEntry : Obligations.Format3FormsCopyTheEntry := by
  intro s e
  have form (id : IdField) (h : histLookup s.hist (idOf id) = some e) :
      ∃ u, exec (mkCh3 id) s = .next u ∧ formDecoded s u 3 (idValue id) e.message (idWidth id).toNat 0 :=
    exec_form_decoded (b := .f3) (by rw [Body.message, h]; rfl)
  exact ⟨fun cs h => form (.b1 cs) (by rwa [idOf_b1]), fun i h => form (.b2 i) (by rwa [idOf_b2]),
    fun i h => form (.b3 i) (by rwa [idOf_b3])⟩

theorem decFailed_raiseDec (s : State) (k : Status) (io : Config.IoErr) (d : DecResult) :
    decFailed s (s.raiseDec k io d) k io s.p :=
  ⟨rfl, rfl, rfl, rfl, rfl, rfl, rfl, rfl, ⟨rfl, rfl, rfl⟩, rfl, rfl, rfl⟩

/-- Format 3 without an entry, in every state. -/
theorem exec_mkCh3_missing {s : State} {id : IdField} (h : histLookup s.hist (idOf id) = none) :
    ∃ u, exec (mkCh3 id) s = .next u ∧ decFailed s u .noPreviousChunk Config.IoErr.zero s.p ∧
      u.dh.bhLen = idWidth id ∧ u.cur = s.cur ∧ u.src = s.src := by
  have hm : Body.f3.message s.hist (idOf id) = none := by rw [Body.message, h]; rfl
  exact ⟨_, exec_form_none hm, decFailed_raiseDec s _ _ _, rfl, rfl, rfl⟩

/-- Settles O18: format 3 without an entry raises the error in the state it finds. -/
theorem format3FormsWithoutEntryFail : Obligations.Format3FormsWithoutEntryFail := by
  intro s
  exact ⟨fun cs h => exec_mkCh3_missing (id := .b1 cs) (by rwa [idOf_b1]),
    fun i h => exec_mkCh3_missing (id := .b2 i) (by rwa [idOf_b2]),
    fun i h => exec_mkCh3_missing (id := .b3 i) (by rwa [idOf_b3])⟩

/-! ### The suffix (R143, R144) -/

/-- DH with the suffix recorded. -/
def withExt (d : DecResult) (e : U32) : DecResult :=
  { d with header := { d.header with extV := true, ext := e }, xtsLen := 4 }

theorem exec_xts_eq (e : U32) (s : State) : exec (.xts e) s = .next (s.finishDec (withExt s.dh e)) := rfl

theorem withExt_total_toNat (d : DecResult) (e : U32) :
    (withExt d e).total.toNat = d.bhLen.toNat + d.mhLen.toNat + 4 := total_toNat _

/-- Settles O19: the suffix sets `ext`, `ext_v` and its length, and the DEC ends on the sum. -/
theorem suffixIsRecorded : Obligations.SuffixIsRecorded := by
  intro s e
  exact ⟨_, exec_xts_eq e s, rfl, rfl, rfl, rfl, rfl, rfl, rfl, withExt_total_toNat s.dh e, rfl, rfl, rfl, rfl, rfl,
    ⟨rfl, rfl, rfl⟩, ⟨rfl, rfl, rfl⟩, rfl, rfl, rfl⟩

end Sys2Proof.Claims

/-! ## What a step can do (O11 to O13, O23, O34, O35, O39 to O42, O44)

The decoder's part of a step always answers, takes a run of answers from the front of the source and touches neither HIST nor
the encoder, the sink or the inputs. Everything else is one act of the host or one answer of the source. -/

namespace Sys2Proof.Claims

open Sys2Proof Sys2Proof.Machine

/-! ### The decoder's part -/

/-- What no part of a DEC touches: HIST, encoder, inputs and sink (R53, R156). -/
def decoderFrame (s t : State) : Prop := t.hist = s.hist ∧ sameEncoder s t ∧ t.inputs = s.inputs ∧ t.snk = s.snk

theorem decoderFrame_refl (s : State) : decoderFrame s s := ⟨rfl, ⟨rfl, rfl, rfl⟩, rfl, rfl⟩

theorem decoderFrame_trans {s t u : State} (h : decoderFrame s t) (h' : decoderFrame t u) : decoderFrame s u := by
  obtain ⟨hh, ⟨he, hs, ho⟩, hi, hk⟩ := h
  obtain ⟨hh', ⟨he', hs', ho'⟩, hi', hk'⟩ := h'
  exact ⟨hh'.trans hh, ⟨he'.trans he, hs'.trans hs, ho'.trans ho⟩, hi'.trans hi, hk'.trans hk⟩

theorem decoderFrame_afterMessage (s : State) (d : DecResult) :
    decoderFrame s (s.afterMessage d) ∧ (s.afterMessage d).src = s.src ∧ (s.afterMessage d).cur = s.cur := by
  obtain ⟨-, h⟩ | ⟨-, h⟩ := afterMessage_cases s d <;> rw [h] <;> exact ⟨⟨rfl, ⟨rfl, rfl, rfl⟩, rfl, rfl⟩, rfl, rfl⟩

/-- An instruction that was read from the source has a next state, and takes nothing more from the source. -/
theorem exec_decoded {k : Part} {bs rest : List Byte} {i : Instr} (h : decode k bs = .ok (i, rest)) (s : State) :
    ∃ t, exec i s = .next t ∧ decoderFrame s t ∧ t.src = s.src ∧ t.cur = s.cur := by
  cases k with
  | header =>
    obtain ⟨id, b, -, rfl, -⟩ := decodeHeader_inv h
    cases hm : b.message s.hist (idOf id) with
    | some m => exact ⟨_, exec_form_some hm, decoderFrame_afterMessage s _⟩
    | none => exact ⟨_, exec_form_none hm, ⟨rfl, ⟨rfl, rfl, rfl⟩, rfl, rfl⟩, rfl, rfl⟩
  | suffix =>
    obtain ⟨e, rfl, -⟩ := decodeSuffix_inv h
    exact ⟨_, exec_xts_eq e s, ⟨rfl, ⟨rfl, rfl, rfl⟩, rfl, rfl⟩, rfl, rfl⟩

/-- The decoder always answers; it takes bytes from the front of the source and at most one answer behind them that is none,
and `cur` moves by the bytes (R41). -/
theorem fetch_answers (k : Part) (s : State) :
    ∃ t, fetch k s = .next t ∧ decoderFrame s t ∧
      ∃ (new : List Byte) (stop : List Answer), s.src = new.map Answer.byte ++ stop ++ t.src ∧
        t.cur = s.cur + new.length ∧ (stop = [] ∨ stop = [.ended] ∨ ∃ x, stop = [.failed x]) := by
  obtain ⟨new, rest, h⟩ := fetch_cases k s
  have frame : decoderFrame s (s.taken new rest) := ⟨rfl, ⟨rfl, rfl, rfl⟩, rfl, rfl⟩
  obtain ⟨i, r, hs, hd, -, hf⟩ | ⟨hs, rfl, -, hf⟩ | ⟨hs, -, hf⟩ | ⟨x, hs, -, hf⟩ := h
  · obtain ⟨t, ht, hframe, hsrc, hcur⟩ := exec_decoded hd (s.taken new rest)
    exact ⟨t, hf.trans ht, decoderFrame_trans frame hframe, new, [], by rw [hsrc, hs, List.append_nil]; rfl, hcur, .inl rfl⟩
  · exact ⟨_, hf, frame, new, [], by rw [hs]; simp [State.taken], rfl, .inl rfl⟩
  · exact ⟨_, hf, frame, new, [.ended], by rw [hs, List.append_assoc]; rfl, rfl, .inr (.inl rfl)⟩
  · exact ⟨_, hf, frame, new, [.failed x], by rw [hs, List.append_assoc]; rfl, rfl, .inr (.inr ⟨x, rfl⟩)⟩

/-- Settles O23: with answers to take the step is the decoder's part, which always answers. -/
theorem decoderIsNeverRefused : Obligations.DecoderIsNeverRefused := by
  intro s k hd hs
  obtain ⟨t, ht, -⟩ := fetch_answers k s
  exact ⟨t, (step_reading hd hs).trans ht⟩

theorem append_ne_nil_of_bytes {new : List Byte} (h : new ≠ []) (rest : List Answer) :
    new.map Answer.byte ++ rest ≠ [] := by simp [h]

theorem formBytes_ne_nil (id : IdField) (b : Body) : formBytes id b ≠ [] := by
  have hlen := formBytes_length id b
  have hpos := idWidth_pos id
  intro h0
  rw [h0, List.length_nil] at hlen
  omega

/-- A decoder at the start of a header runs the form whose bytes come next. -/
theorem step_formBytes {s : State} {id : IdField} {b : Body} {rest : List Answer} (hd : s.dec = .reading .header)
    (hpart : s.part = []) (hwf : idWf id = true) (hs : s.src = (formBytes id b).map Answer.byte ++ rest) :
    s.src ≠ [] ∧ step s = exec (b.form id) (s.taken (formBytes id b) rest) := by
  have hread : decode .header (s.part ++ formBytes id b) = .ok (b.form id, []) := by
    rw [hpart, List.nil_append, ← List.append_nil (formBytes id b)]
    exact decodeHeader_formBytes hwf b []
  have hne : s.src ≠ [] := by rw [hs]; exact append_ne_nil_of_bytes (formBytes_ne_nil id b) rest
  exact ⟨hne, (step_reading hd hne).trans (fetch_of_decode hs hread)⟩

/-- Bytes that are too short, with no answer behind them, are taken and kept (R251). -/
theorem fetch_of_short {k : Part} {s : State} {new : List Byte} {e : DecodeError} (hs : s.src = new.map Answer.byte)
    (h : decode k (s.part ++ new) = .error e) : fetch k s = .next (s.taken new []) := by
  have hp : pull k s.part s.src = (s.part ++ new, [], .waiting) := by
    have := pull_of_short (rest := []) h
    rw [List.append_nil] at this
    rw [hs, this]
    simp only [pull, h]
  simp only [fetch, hp, List.length_append, Nat.add_sub_cancel_left, State.taken]

/-- `End` in place of a byte that is needed (R204). -/
theorem fetch_of_ended {k : Part} {s : State} {new : List Byte} {rest : List Answer} {e : DecodeError}
    (hs : s.src = new.map Answer.byte ++ .ended :: rest) (h : decode k (s.part ++ new) = .error e) :
    fetch k s =
      .next ((s.taken new rest).raiseDec .endOfStream Config.IoErr.zero ((s.taken new rest).errorResult k)) := by
  have hp : pull k s.part s.src = (s.part ++ new, rest, .ended) := by
    rw [hs, pull_of_short h]
    simp only [pull, h]
  simp only [fetch, hp, List.length_append, Nat.add_sub_cancel_left, State.taken]

/-- `Fail` in place of a byte that is needed (R205). -/
theorem fetch_of_failed {k : Part} {s : State} {new : List Byte} {rest : List Answer} {e : DecodeError} {x : Config.IoErr}
    (hs : s.src = new.map Answer.byte ++ .failed x :: rest) (h : decode k (s.part ++ new) = .error e) :
    fetch k s = .next ((s.taken new rest).raiseDec .ioFailure x ((s.taken new rest).errorResult k)) := by
  have hp : pull k s.part s.src = (s.part ++ new, rest, .failed x) := by
    rw [hs, pull_of_short h]
    simp only [pull, h]
  simp only [fetch, hp, List.length_append, Nat.add_sub_cancel_left, State.taken]

/-! ### The external agents' part -/

theorem takeInput_nil {s : State} (h : s.inputs = []) : takeInput s = .next s := by
  simp only [takeInput, h]

theorem takeInput_op {s : State} {o : HostOp} {rest : List Input} (h : s.inputs = .op o :: rest) :
    takeInput s = exec o.toInstr (s.withInputs rest) := by
  simp only [takeInput, h]

theorem takeInput_answer {s : State} {a : Answer} {rest : List Input} (h : s.inputs = .answer a :: rest) :
    takeInput s = .next ((s.withInputs rest).arrive a) := by
  simp only [takeInput, h]

theorem takeInput_hostSend {s : State} {rest : List Input} (h : s.inputs = .hostSend :: rest) :
    takeInput s = .next (s.withInputs rest).send := by
  simp only [takeInput, h]

theorem takeInput_hostRead {s : State} {a : Answer} {src : List Answer} {rest : List Input} (hd : s.dec = .idle)
    (h : s.inputs = .hostRead :: rest) (hs : s.src = a :: src) :
    takeInput s = .next ((s.withInputs rest).hostTake a src) := by
  simp only [takeInput, h, (ready_iff s).2 hd, hs, if_true]

theorem takeInput_hostRead_unanswered {s : State} {rest : List Input} (hd : s.dec = .idle)
    (h : s.inputs = .hostRead :: rest) (hs : s.src = []) : takeInput s = .next s := by
  simp only [takeInput, h, (ready_iff s).2 hd, hs, if_true]

theorem not_ready_of_reading {s : State} {k : Part} (h : s.dec = .reading k) : s.ready = false := by
  simp [State.ready, h]

theorem takeInput_hostRead_busy {s : State} {k : Part} {rest : List Input} (hd : s.dec = .reading k)
    (h : s.inputs = .hostRead :: rest) : takeInput s = .refused .hostReadDuringDec := by
  simp [takeInput, h, not_ready_of_reading hd]

/-! ### A step runs what is read or issued -/

/-- Settles O11: the decoder's part runs what the bytes spell, the host's act is the operation it issues. -/
theorem stepRunsTheInstructionRead : Obligations.StepRunsTheInstructionRead := by
  constructor
  · intro s k new rest i hd hn hs h
    rw [step_reading hd (hs ▸ append_ne_nil_of_bytes hn rest), fetch_of_decode hs h]
    rfl
  · intro s o rest hw hi
    rw [step_waiting hw, takeInput_op hi]
    rfl

/-- Settles O12: bytes that are too short are kept, and without an answer nothing happens until one arrives. -/
theorem decoderWaits : Obligations.DecoderWaits := by
  refine ⟨?_, ?_, ?_⟩
  · intro s k new e hd hn hs h
    rw [step_reading hd (by simp [hs, hn]), fetch_of_short hs h]
    rfl
  · intro s k _ hs hi
    rw [step_waiting (.inr hs), takeInput_nil hi]
  · intro s a rest hw hi
    rw [step_waiting hw, takeInput_answer hi]
    rfl

/-- Settles O13: a read of the idle host takes the next answer, a byte or not, and a write appends the output. -/
theorem hostReadsAndWrites : Obligations.HostReadsAndWrites := by
  refine ⟨?_, ?_, ?_⟩
  · intro s b src rest hd hi hs
    rw [step_waiting (.inl hd), takeInput_hostRead hd hi hs]
    rfl
  · intro s a src rest hd hi hs ha
    rw [step_waiting (.inl hd), takeInput_hostRead hd hi hs]
    cases a with
    | byte b => exact absurd rfl (ha b)
    | ended => rfl
    | failed x => rfl
  · intro s rest hd hi
    rw [step_waiting (.inl hd), takeInput_hostSend hi]
    rfl

/-- Settles O44: the read has no answer to take, and the write does not ask what the decoder does. -/
theorem hostReadWaitsAndHostWritesBesideDec : Obligations.HostReadWaitsAndHostWritesBesideDec := by
  constructor
  · intro s rest hd hi hs
    rw [step_waiting (.inl hd), takeInput_hostRead_unanswered hd hi hs]
  · intro s k rest _ hs hi
    rw [step_waiting (.inr hs), takeInput_hostSend hi]
    rfl

/-! ### The ports (R52, R79) -/

theorem exec_dec_of_idle {s : State} (h : s.dec = .idle) : exec .dec s = .next s.startDec := if_pos ((ready_iff s).2 h)

/-- Settles O35: a DEC on an idle decoder is `startDec`. -/
theorem decBegins : Obligations.DecBegins := by
  intro s h
  exact ⟨_, exec_dec_of_idle h, rfl, rfl, rfl, rfl, rfl, ⟨rfl, rfl, rfl⟩, ⟨rfl, rfl, rfl⟩, rfl, rfl, rfl⟩

theorem exec_dec_of_reading {s : State} {k : Part} (h : s.dec = .reading k) : exec .dec s = .refused .decPortBusy :=
  if_neg (by simp [not_ready_of_reading h])

theorem exec_hpush_of_reading {s : State} {k : Part} (h : s.dec = .reading k) (c : ChunkHeader) :
    exec (.hpush c) s = .refused .histPortBusy :=
  if_neg (by simp [not_ready_of_reading h])

theorem exec_hclr_of_reading {s : State} {k : Part} (h : s.dec = .reading k) : exec .hclr s = .refused .histPortBusy :=
  if_neg (by simp [not_ready_of_reading h])

/-- Settles O39: none of the three ports is ready. -/
theorem overlapIsRefused : Obligations.OverlapIsRefused := by
  intro s k h
  exact ⟨exec_dec_of_reading h, exec_hpush_of_reading h, exec_hclr_of_reading h⟩

/-- ENC answers in every state, and its response does not depend on the state (R53). -/
theorem exec_enc_eq (h : EncOperand) : ∃ k bs, ∀ s : State, exec (.enc h) s = .next (s.encRespond h k bs) := by
  cases he : encHeader h with
  | ok bs => exact ⟨.ok, bs, exec_enc_of_ok he⟩
  | error e => exact ⟨e.status, [], exec_enc_of_error he⟩

/-- Which act of the host is refused while a DEC is in progress, and how (R52; entry 12). -/
def overlaps (x : Input) (r : Refusal) : Prop :=
  (x = .op .dec ∧ r = .decPortBusy) ∨ ((∃ h, x = .op (.hpush h)) ∧ r = .histPortBusy) ∨
    (x = .op .hclr ∧ r = .histPortBusy) ∨ (x = .hostRead ∧ r = .hostReadDuringDec)

theorem takeInput_idle_answers {s : State} (hd : s.dec = .idle) : ∃ t, takeInput s = .next t := by
  cases hi : s.inputs with
  | nil => exact ⟨_, takeInput_nil hi⟩
  | cons x rest =>
    have hd' : (s.withInputs rest).dec = .idle := hd
    cases x with
    | op o =>
      rw [takeInput_op hi]
      cases o with
      | enc h =>
        obtain ⟨k, bs, he⟩ := exec_enc_eq h
        exact ⟨_, he _⟩
      | dec => exact ⟨_, exec_dec_of_idle hd'⟩
      | hpush c => exact ⟨_, exec_hpush_of_idle hd' c⟩
      | hclr => exact ⟨_, exec_hclr_of_idle hd'⟩
      | reset => exact ⟨_, exec_reset _⟩
    | answer a => exact ⟨_, takeInput_answer hi⟩
    | hostSend => exact ⟨_, takeInput_hostSend hi⟩
    | hostRead =>
      cases hs : s.src with
      | nil => exact ⟨_, takeInput_hostRead_unanswered hd hi hs⟩
      | cons a src => exact ⟨_, takeInput_hostRead hd hi hs⟩

theorem takeInput_reading_refused_iff {s : State} {k : Part} (hd : s.dec = .reading k) (r : Refusal) :
    takeInput s = .refused r ↔ ∃ x rest, s.inputs = x :: rest ∧ overlaps x r := by
  cases hi : s.inputs with
  | nil => simp [takeInput_nil hi]
  | cons x rest =>
    have hd' : (s.withInputs rest).dec = .reading k := hd
    cases x with
    | op o =>
      rw [takeInput_op hi]
      cases o with
      | enc h =>
        obtain ⟨k, bs, he⟩ := exec_enc_eq h
        simp [HostOp.toInstr, he, overlaps]
      | dec => simp [HostOp.toInstr, exec_dec_of_reading hd', overlaps, eq_comm]
      | hpush c => simp [HostOp.toInstr, exec_hpush_of_reading hd', overlaps, eq_comm]
      | hclr => simp [HostOp.toInstr, exec_hclr_of_reading hd', overlaps, eq_comm]
      | reset => simp [HostOp.toInstr, exec_reset, overlaps]
    | answer a => simp [takeInput_answer hi, overlaps]
    | hostSend => simp [takeInput_hostSend hi, overlaps]
    | hostRead => simp [takeInput_hostRead_busy hd hi, overlaps, eq_comm]

/-- Settles O40: the decoder's part always answers, so does an idle machine, and a waiting one refuses the overlaps. -/
theorem stepIsRefusedOnlyForOverlap : Obligations.StepIsRefusedOnlyForOverlap := by
  intro s r
  cases hd : s.dec with
  | idle =>
    obtain ⟨t, ht⟩ := takeInput_idle_answers hd
    simp [step_waiting (.inl hd), ht]
  | reading k =>
    by_cases hs : s.src = []
    · rw [step_waiting (.inr hs), takeInput_reading_refused_iff hd]
      exact ⟨fun h => ⟨⟨k, rfl⟩, hs, h⟩, fun ⟨_, _, h⟩ => h⟩
    · obtain ⟨t, ht, -⟩ := fetch_answers k s
      simp [step_reading hd hs, ht, hs]

/-! ### HIST and the cursor (R26, R27, R41) -/

/-- Settles O41: the decoder's part keeps HIST, and so does every act but HPUSH, HCLR and RESET. -/
theorem onlyTheHostChangesHist : Obligations.OnlyTheHostChangesHist := by
  intro s t h
  obtain ⟨k, -, -, hf⟩ | ⟨-, hact⟩ := step_cases h
  · obtain ⟨t', ht, ⟨hhist, -⟩, -⟩ := fetch_answers k s
    rw [hf] at ht
    cases ht
    exact .inl hhist
  obtain rfl | ⟨h', rest, hi, he⟩ | ⟨rest, hi, -, rfl⟩ | ⟨h', rest, hi, -, rfl⟩ | ⟨rest, hi, -, rfl⟩ | ⟨rest, hi, rfl⟩ |
    ⟨a, rest, hi, rfl⟩ | ⟨rest, hi, rfl⟩ | ⟨a, src, rest, hi, -, -, rfl⟩ := takeInput_cases hact
  · exact .inl rfl
  · obtain ⟨k, bs, hk⟩ := exec_enc_eq h'
    cases (hk _).symm.trans he
    exact .inl rfl
  · exact .inl rfl
  · exact .inr (.inl ⟨h', rest, hi, rfl⟩)
  · exact .inr (.inr ⟨rest, .inl hi, rfl⟩)
  · exact .inr (.inr ⟨rest, .inr hi, rfl⟩)
  · exact .inl rfl
  · exact .inl rfl
  · exact .inl (hostTake_hist _ a src)

/-- Settles O42: the decoder's part takes answers in order, a host read takes one, and no other act takes any. -/
theorem cursorCountsDeliveredBytes : Obligations.CursorCountsDeliveredBytes := by
  intro s t h
  obtain ⟨k, -, -, hf⟩ | ⟨-, hact⟩ := step_cases h
  · obtain ⟨t', ht, -, new, stop, hsrc, hcur, hstop⟩ := fetch_answers k s
    rw [hf] at ht
    cases ht
    exact .inr ⟨new, stop, t.src, [], hsrc, by simp, hcur, hstop, .inl rfl⟩
  have none_taken (hsrc : t.src = s.src) (hcur : t.cur = s.cur) :
      ∃ (bytes : List Byte) (stop left new : List Answer),
        s.src = bytes.map Answer.byte ++ stop ++ left ∧ t.src = left ++ new ∧ t.cur = s.cur + bytes.length ∧
        (stop = [] ∨ stop = [.ended] ∨ ∃ x, stop = [.failed x]) ∧
        (new = [] ∨ ∃ a rest, s.inputs = .answer a :: rest ∧ new = [a] ∧ bytes = [] ∧ stop = []) :=
    ⟨[], [], s.src, [], rfl, by simp [hsrc], hcur, .inl rfl, .inl rfl⟩
  obtain rfl | ⟨h', rest, hi, he⟩ | ⟨rest, hi, -, rfl⟩ | ⟨h', rest, hi, -, rfl⟩ | ⟨rest, hi, -, rfl⟩ | ⟨rest, hi, rfl⟩ |
    ⟨a, rest, hi, rfl⟩ | ⟨rest, hi, rfl⟩ | ⟨a, src, rest, hi, -, hs, rfl⟩ := takeInput_cases hact
  · exact .inr (none_taken rfl rfl)
  · obtain ⟨k, bs, hk⟩ := exec_enc_eq h'
    cases (hk _).symm.trans he
    exact .inr (none_taken rfl rfl)
  · exact .inr (none_taken rfl rfl)
  · exact .inr (none_taken rfl rfl)
  · exact .inr (none_taken rfl rfl)
  · exact .inl ⟨⟨rest, hi⟩, rfl, rfl⟩
  · exact .inr ⟨[], [], s.src, [a], rfl, rfl, rfl, .inl rfl, .inr ⟨a, rest, hi, rfl, rfl, rfl⟩⟩
  · exact .inr (none_taken rfl rfl)
  · right
    cases a with
    | byte b => exact ⟨[b], [], src, [], hs, by simp, rfl, .inl rfl, .inl rfl⟩
    | ended => exact ⟨[], [.ended], src, [], hs, by simp, rfl, .inr (.inl rfl), .inl rfl⟩
    | failed x => exact ⟨[], [.failed x], src, [], hs, by simp, rfl, .inr (.inr ⟨x, rfl⟩), .inl rfl⟩

/-! ### ENC beside a DEC (R53) -/

theorem afterMessage_encRespond (s : State) (d : DecResult) (h : EncOperand) (k : Status) (bs : List Byte) :
    (s.encRespond h k bs).afterMessage d = (s.afterMessage d).encRespond h k bs := by
  unfold State.afterMessage
  split_ifs <;> rfl

/-- What an instruction read from the source does, it does beside any response of the encoder. -/
theorem exec_decoded_encRespond {j : Part} {bs rest : List Byte} {i : Instr} (hd : decode j bs = .ok (i, rest)) {s t : State}
    (ht : exec i s = .next t) (h : EncOperand) (k : Status) (out : List Byte) :
    exec i (s.encRespond h k out) = .next (t.encRespond h k out) := by
  cases j with
  | header =>
    obtain ⟨id, b, -, rfl, -⟩ := decodeHeader_inv hd
    cases hm : b.message s.hist (idOf id) with
    | some m =>
      rw [exec_form_some hm] at ht
      cases ht
      rw [exec_form_some (s := s.encRespond h k out) hm, afterMessage_encRespond]
    | none =>
      rw [exec_form_none hm] at ht
      cases ht
      exact exec_form_none (s := s.encRespond h k out) hm
  | suffix =>
    obtain ⟨e, rfl, -⟩ := decodeSuffix_inv hd
    cases ht
    rfl

theorem fetch_encRespond {j : Part} {s t : State} (ht : fetch j s = .next t) (h : EncOperand) (k : Status)
    (out : List Byte) : fetch j (s.encRespond h k out) = .next (t.encRespond h k out) := by
  rcases hp : pull j s.part s.src with ⟨bs, rest, stop⟩
  simp only [fetch, hp, encRespond_part, encRespond_src] at ht ⊢
  cases stop with
  | complete i =>
    obtain ⟨new, -, ⟨i', r, hi, -, hd⟩ | ⟨hi, -⟩ | ⟨hi, -⟩ | ⟨x, hi, -⟩⟩ := pull_cases hp <;> cases hi
    exact exec_decoded_encRespond hd ht h k out
  | waiting => cases ht; rfl
  | ended => cases ht; cases j <;> rfl
  | failed x => cases ht; cases j <;> rfl

/-- Settles O34: ENC writes the encoder's fields alone, and the decoder's part neither reads nor writes them. -/
theorem encBesideDec : Obligations.EncBesideDec := by
  intro s j h hd hs
  obtain ⟨k, bs, he⟩ := exec_enc_eq h
  obtain ⟨t, ht, -⟩ := fetch_answers j s
  exact ⟨t, _, _, (step_reading hd hs).trans ht, he s,
    (step_reading (s := s.encRespond h k bs) hd hs).trans (fetch_encRespond ht h k bs), he t⟩

/-! ### RESET, the state after reset, and the codes -/

/-- Settles O2: RESET leads to `resetCodec`, whose fields the laws of the state give. -/
theorem resetLeavesWhatIsOutside : Obligations.ResetLeavesWhatIsOutside := by
  intro s
  exact ⟨s.resetCodec, exec_reset s, resetCodec_eh s, resetCodec_encStatus s, resetCodec_dh s, resetCodec_snk s,
    resetCodec_inputs s, resetCodec_draws s⟩

/-- Settles O43: status by status. -/
theorem statusCodes : Obligations.StatusCodes := by
  refine ⟨rfl, rfl, rfl, rfl, rfl, rfl, fun k => ?_⟩
  cases k <;> decide

end Sys2Proof.Claims

/-! ## The invariant (O3, O4)

The decoder holds at most 17 bytes before the answer that ends a DEC, so no count overflows; a form gives the header its
format and width allow, and the two ends of a DEC, result and error, each meet the invariant once and for all. -/

namespace Sys2Proof.Claims

open Sys2Proof Sys2Proof.Machine

/-! ### Bytes that are too short -/

theorem decodeId_short {b0 : Byte} {bs : List Byte} {e : DecodeError} (h : decodeId b0 bs = .error e) :
    bs.length + 1 < widthOf b0 ∧ e = .basicHeaderShort := by
  unfold decodeId at h
  unfold widthOf
  split_ifs at h ⊢ with h2 h3
  · cases bs with
    | nil => cases h; simp
    | cons i rest => cases h
  · match bs, h with
    | [], h => cases h; simp
    | [_], h => cases h; simp

theorem decodeMessage_short {f : BitVec 2} {id : IdField} {bs : List Byte} {e : DecodeError}
    (h : decodeMessage f id bs = .error e) : bs.length < Config.mhLen f ∧ e = .messageHeaderShort := by
  unfold decodeMessage at h
  split_ifs at h with h0 h1 h2 <;> split at h <;> cases h <;> refine ⟨Nat.lt_of_not_le fun hl => ?_, rfl⟩
  · next hno =>
    iterate 11 (obtain _ | ⟨_, bs⟩ := bs; · simp [h0, Config.mhLen] at hl)
    exact hno _ _ _ _ _ _ _ _ _ _ _ _ rfl
  · next hno =>
    iterate 7 (obtain _ | ⟨_, bs⟩ := bs; · simp [h1, Config.mhLen] at hl)
    exact hno _ _ _ _ _ _ _ _ rfl
  · next hno =>
    iterate 3 (obtain _ | ⟨_, bs⟩ := bs; · simp [h2, Config.mhLen] at hl)
    exact hno _ _ _ _ rfl

theorem widthOf_le (b0 : Byte) : widthOf b0 ≤ 3 := by
  unfold widthOf
  split_ifs <;> omega

/-- Bytes that spell no header end inside the basic header or inside the message header. -/
theorem decodeHeader_short {bs : List Byte} {e : DecodeError} (h : decodeHeader bs = .error e) :
    (e = .basicHeaderShort ∧ bs = []) ∨
    (e = .basicHeaderShort ∧ ∃ b0 tl, bs = b0 :: tl ∧ tl.length + 1 < widthOf b0) ∨
    (e = .messageHeaderShort ∧
      ∃ id f mid, idWf id = true ∧ bs = idBytes f id ++ mid ∧ mid.length < Config.mhLen f) := by
  cases bs with
  | nil => cases h; exact .inl ⟨rfl, rfl⟩
  | cons b0 tl =>
    cases hid : decodeId b0 tl with
    | error e' =>
      simp only [decodeHeader, hid] at h
      cases h
      obtain ⟨hl, rfl⟩ := decodeId_short hid
      exact .inr (.inl ⟨rfl, b0, tl, rfl, hl⟩)
    | ok v =>
      obtain ⟨id, mid⟩ := v
      simp only [decodeHeader, hid] at h
      obtain ⟨hl, rfl⟩ := decodeMessage_short h
      obtain ⟨hwf, hbs⟩ := decodeId_inv hid
      exact .inr (.inr ⟨rfl, id, fmtOf b0, mid, hwf, hbs, hl⟩)

theorem decodeHeader_short_length {bs : List Byte} {e : DecodeError} (h : decodeHeader bs = .error e) :
    bs.length ≤ 13 := by
  obtain ⟨-, rfl⟩ | ⟨-, b0, tl, rfl, hl⟩ | ⟨-, id, f, mid, -, rfl, hl⟩ := decodeHeader_short h
  · simp
  · have := widthOf_le b0
    simp only [List.length_cons]; omega
  · have := mhLen_le f
    have := (idWidth id).isLt
    simp only [List.length_append, idBytes_length]; omega

theorem decodeSuffix_short {bs : List Byte} {e : DecodeError} (h : decodeSuffix bs = .error e) : bs.length < 4 := by
  unfold decodeSuffix at h
  split at h
  · cases h
  next hno =>
    refine Nat.lt_of_not_le fun hl => ?_
    iterate 4 (obtain _ | ⟨_, bs⟩ := bs; · simp at hl)
    exact hno _ _ _ _ _ rfl

theorem decodeSuffix_of_length {bs : List Byte} (h : bs.length < 4) : decodeSuffix bs = .error .suffixShort := by
  unfold decodeSuffix
  split
  · simp only [List.length_cons] at h
    omega
  · rfl

/-! ### The invariant by phase -/

theorem decWf_idle {s : State} (hd : s.dec = .idle) : s.decWf ↔ s.part = [] ∧ s.p = 0 ∧ (s.dhValid = true →
    (s.dh.status = .ok ∧ s.dh.success ∧ s.dh.consumed.toNat ≤ s.cur) ∨ (s.dh.failure ∧ s.dh.faultPos.toNat ≤ s.cur)) := by
  simp only [State.decWf, hd]

theorem decWf_header {s : State} (hd : s.dec = .reading .header) : s.decWf ↔
    s.dhValid = false ∧ s.dh = DecResult.cleared ∧ s.p = s.part.length ∧
    (decodeHeader s.part = .error .basicHeaderShort ∨ decodeHeader s.part = .error .messageHeaderShort) ∧ s.p ≤ s.cur := by
  simp only [State.decWf, hd]

theorem decWf_suffix {s : State} (hd : s.dec = .reading .suffix) : s.decWf ↔
    s.dhValid = false ∧ s.dh.awaiting ∧ s.part.length < Config.xtsLen ∧
    s.p = s.dh.bhLen.toNat + s.dh.mhLen.toNat + s.part.length ∧ s.p ≤ s.cur := by
  simp only [State.decWf, hd]

/-- A step that leaves the decoder alone and moves `cur` forward, if at all, keeps the decoder's half. -/
theorem decWf_of_sameDecoder {s t : State} (h : sameDecoder s t) (hcur : s.cur ≤ t.cur) (hs : s.decWf) : t.decWf := by
  obtain ⟨hdh, hv, hd, hpart, hp, -⟩ := h
  cases hds : s.dec with
  | idle =>
    rw [hds] at hd
    rw [decWf_idle hds] at hs
    rw [decWf_idle hd, hdh, hv, hpart, hp]
    obtain ⟨h1, h2, h3⟩ := hs
    exact ⟨h1, h2, fun hv => (h3 hv).imp (fun ⟨a, b, c⟩ => ⟨a, b, c.trans hcur⟩) (fun ⟨a, b⟩ => ⟨a, b.trans hcur⟩)⟩
  | reading k =>
    rw [hds] at hd
    cases k with
    | header =>
      rw [decWf_header hds] at hs
      rw [decWf_header hd, hdh, hv, hpart, hp]
      obtain ⟨h1, h2, h3, h4, h5⟩ := hs
      exact ⟨h1, h2, h3, h4, h5.trans hcur⟩
    | suffix =>
      rw [decWf_suffix hds] at hs
      rw [decWf_suffix hd, hdh, hv, hpart, hp]
      obtain ⟨h1, h2, h3, h4, h5⟩ := hs
      exact ⟨h1, h2, h3, h4, h5.trans hcur⟩

theorem encWf_of_sameEncoder {s t : State} (h : sameEncoder s t) (hs : s.encWf) : t.encWf := by
  obtain ⟨-, hst, hout⟩ := h
  unfold State.encWf at hs ⊢
  rwa [hst, hout]

/-- After RESET the decoder is idle and presents nothing, and the encoder's output is empty. -/
theorem resetCodec_inv (s : State) : s.resetCodec.Inv :=
  ⟨⟨.inl rfl, Nat.zero_le _⟩, (decWf_idle (resetCodec_dec s)).2 ⟨rfl, rfl, nofun⟩⟩

/-- Settles O3: the state after reset is the one RESET leads to from itself. -/
theorem resetMeetsInvariant : Obligations.ResetMeetsInvariant := resetCodec_inv State.reset

theorem headerRead_bounds {d : DecResult} (h : d.headerRead) :
    1 ≤ d.bhLen.toNat ∧ d.bhLen.toNat ≤ 3 ∧ d.mhLen.toNat ≤ 11 := by
  obtain ⟨hid, -, hm⟩ := h
  have := mhLen_le d.header.basic.format
  unfold idInRange at hid
  omega

/-- A DEC in progress that still lacks a byte has taken at most 17, all of them counted. -/
theorem reading_short {s : State} {k : Part} {new : List Byte} {e : DecodeError} (hs : s.decWf) (hd : s.dec = .reading k)
    (h : decode k (s.part ++ new) = .error e) : s.p + new.length ≤ 17 ∧ s.p ≤ s.cur := by
  cases k with
  | header =>
    obtain ⟨-, -, hp, -, hcur⟩ := (decWf_header hd).1 hs
    have := decodeHeader_short_length h
    rw [List.length_append] at this
    omega
  | suffix =>
    obtain ⟨-, ⟨hread, -⟩, -, hp, hcur⟩ := (decWf_suffix hd).1 hs
    have := decodeSuffix_short h
    rw [List.length_append] at this
    have := headerRead_bounds hread
    omega

/-! ### The ends of a DEC -/

/-- A header that was read, with `ext` as the sentinel test asks, makes a success (R143, R154). -/
theorem success_of_headerRead {d : DecResult} (hread : d.headerRead) (hx : d.header.extV = sentinel d.header.message)
    (he : d.header.extV = false → d.header.ext = 0) (hl : d.xtsLen.toNat = if d.header.extV then Config.xtsLen else 0)
    (hf : d.faultPos = 0) : DecResult.success { d with status := .ok, consumed := d.total } := by
  obtain ⟨hb1, hb3, hm⟩ := headerRead_bounds hread
  have hx4 : d.xtsLen.toNat ≤ 4 := by rw [hl]; split_ifs <;> simp [Config.xtsLen]
  refine ⟨hread, hx, he, hl, total_toNat d, ?_, ?_, hf⟩
  · show 1 ≤ d.total.toNat
    rw [total_toNat]; omega
  · show d.total.toNat ≤ 18
    rw [total_toNat]; omega

theorem decWf_finishDec {s : State} {d : DecResult} (h : DecResult.success { d with status := .ok, consumed := d.total })
    (hcur : d.bhLen.toNat + d.mhLen.toNat + d.xtsLen.toNat ≤ s.cur) : (s.finishDec d).decWf :=
  (decWf_idle (finishDec_dec s d)).2 ⟨rfl, rfl, fun _ => .inl ⟨rfl, h, (total_toNat d).le.trans hcur⟩⟩

/-- An error of a DEC that has consumed at most 17 bytes makes a failure (R210). -/
theorem decWf_raiseDec {s : State} {k : Status} {io : Config.IoErr} {d : DecResult}
    (hk : k = .noPreviousChunk ∨ k = .endOfStream ∨ k = .ioFailure) (hp : s.p ≤ 17) (hcur : s.p ≤ s.cur)
    (hno : k = .noPreviousChunk → s.p = d.bhLen.toNat ∧ 1 ≤ s.p ∧ s.p ≤ 3) : (s.raiseDec k io d).decWf := by
  have hpos : (BitVec.ofNat 5 s.p).toNat = s.p := by rw [BitVec.toNat_ofNat, Nat.mod_eq_of_lt (by omega)]
  refine (decWf_idle (raiseDec_dec s k io d)).2 ⟨rfl, rfl, fun _ => .inr ⟨⟨hk, hpos.le.trans hp, ?_⟩, hpos.le.trans hcur⟩⟩
  show k = _ → (BitVec.ofNat 5 s.p).toNat = d.bhLen.toNat ∧ 1 ≤ (BitVec.ofNat 5 s.p).toNat ∧ (BitVec.ofNat 5 s.p).toNat ≤ 3
  rwa [hpos]

/-! ### A form is complete -/

/-- A field that is no marker spells an id in the range of its width (R113). -/
theorem idInRange_of_wf {id : IdField} (h : idWf id = true) : idInRange (idWidth id).toNat (idOf id).toNat := by
  rw [idOf_toNat]
  cases id with
  | b1 cs =>
    obtain ⟨h0, h1⟩ := wfId_iff.1 h
    have := cs.isLt
    have : cs.toNat ≠ 0 := fun he => h0 (BitVec.eq_of_toNat_eq he)
    have : cs.toNat ≠ 1 := fun he => h1 (BitVec.eq_of_toNat_eq he)
    exact .inl ⟨rfl, by simp only [idValue]; omega, by simp only [idValue]; omega⟩
  | b2 i =>
    have := i.isLt
    exact .inr (.inl ⟨rfl, by simp only [idValue]; omega, by simp only [idValue]; omega⟩)
  | b3 i =>
    have := i.isLt
    exact .inr (.inr ⟨rfl, by simp only [idValue]; omega, by simp only [idValue]; omega⟩)

/-- R132: what is not on the wire is 0, and a time field on the wire has 24 bits. -/
theorem messageShape_message {b : Body} {hist : List ChunkHeader} {id : U32} {m : MessageHeader}
    (h : b.message hist id = some m) : messageShape b.fmt m := by
  have lt (v : U24) : (timeOf v).toNat ≤ Config.S := by
    rw [timeOf_toNat]
    exact Nat.le_of_lt_succ v.isLt
  cases b with
  | f0 t l y m' => cases h; exact ⟨fun _ => rfl, nofun, nofun, fun _ => ⟨lt t, Nat.zero_le _⟩⟩
  | f1 d l y => cases h; exact ⟨nofun, fun _ => ⟨rfl, rfl⟩, nofun, fun _ => ⟨Nat.zero_le _, lt d⟩⟩
  | f2 d => cases h; exact ⟨nofun, nofun, fun _ => ⟨rfl, rfl, rfl, rfl⟩, fun _ => ⟨Nat.zero_le _, lt d⟩⟩
  | f3 => exact ⟨nofun, nofun, nofun, fun hf => absurd rfl hf⟩

theorem formResult_headerRead {id : IdField} {b : Body} {hist : List ChunkHeader} {m : MessageHeader}
    (hwf : idWf id = true) (h : b.message hist (idOf id) = some m) : (formResult id b m).headerRead :=
  ⟨idInRange_of_wf hwf, messageShape_message h, formResult_mhLen_toNat id b m⟩

/-- After a form the DEC has ended with a success, or awaits the suffix with all bytes of the form counted. -/
theorem decWf_afterMessage {s : State} {id : IdField} {b : Body} {m : MessageHeader} (hwf : idWf id = true)
    (h : b.message s.hist (idOf id) = some m) (hp : s.p = (formBytes id b).length) (hcur : s.p ≤ s.cur) :
    (s.afterMessage (formResult id b m)).decWf := by
  have hread := formResult_headerRead hwf h
  have hlen := (formResult_mhLen_toNat id b m).symm
  rw [formBytes_length, hlen] at hp
  obtain ⟨hsent, ha⟩ | ⟨hsent, ha⟩ := afterMessage_cases s (formResult id b m) <;> rw [ha]
  · exact (decWf_suffix (awaitSuffix_dec s _)).2
      ⟨rfl, ⟨hread, hsent, rfl, rfl, rfl, rfl, rfl⟩, Nat.zero_lt_succ 3, hp, hcur⟩
  · exact decWf_finishDec (success_of_headerRead hread hsent.symm (fun _ => rfl) rfl rfl) (hp ▸ hcur)

/-- What an instruction that the decoder completes leaves behind. -/
theorem exec_complete_decWf {s t : State} {k : Part} {new : List Byte} {rest : List Answer} {i : Instr} (hs : s.decWf)
    (hd : s.dec = .reading k) (h : decode k (s.part ++ new) = .ok (i, [])) (ht : exec i (s.taken new rest) = .next t) :
    t.decWf := by
  cases k with
  | header =>
    obtain ⟨-, -, hp, -, hcur⟩ := (decWf_header hd).1 hs
    obtain ⟨id, b, hwf, rfl, hbs⟩ := decodeHeader_inv h
    rw [List.append_nil] at hbs
    have hp' : (s.taken new rest).p = (formBytes id b).length := by
      rw [← hbs, List.length_append, ← hp]
      rfl
    have hcur' : (s.taken new rest).p ≤ (s.taken new rest).cur := Nat.add_le_add_right hcur _
    cases hm : b.message (s.taken new rest).hist (idOf id) with
    | some m =>
      rw [exec_form_some hm] at ht
      cases ht
      exact decWf_afterMessage hwf hm hp' hcur'
    | none =>
      rw [exec_form_none hm] at ht
      cases ht
      have hw : (s.taken new rest).p = (idWidth id).toNat := by
        rw [hp', formBytes_length, message_eq_none hm]
        rfl
      have := (idWidth id).isLt
      exact decWf_raiseDec (.inl rfl) (by omega) hcur' fun _ => ⟨hw, hw ▸ idWidth_pos id, by omega⟩
  | suffix =>
    obtain ⟨-, ⟨hread, hsent, -, -, -, -, hfault⟩, -, hp, hcur⟩ := (decWf_suffix hd).1 hs
    obtain ⟨e, rfl, hbs⟩ := decodeSuffix_inv h
    have hl : (s.part ++ new).length = 4 := by rw [hbs]; rfl
    rw [List.length_append] at hl
    cases ht
    refine decWf_finishDec (success_of_headerRead (d := withExt s.dh e) hread hsent.symm nofun rfl hfault) ?_
    show s.dh.bhLen.toNat + s.dh.mhLen.toNat + 4 ≤ s.cur + new.length
    omega

/-! ### Every step -/

/-- Bytes that are too short are counted like those already held. -/
theorem decWf_taken_short {s : State} {k : Part} {new : List Byte} {rest : List Answer} {e : DecodeError} (hs : s.decWf)
    (hd : s.dec = .reading k) (h : decode k (s.part ++ new) = .error e) : (s.taken new rest).decWf := by
  cases k with
  | header =>
    obtain ⟨hv, hdh, hp, -, hcur⟩ := (decWf_header hd).1 hs
    have hkind : e = .basicHeaderShort ∨ e = .messageHeaderShort := by
      obtain ⟨he, -⟩ | ⟨he, -⟩ | ⟨he, -⟩ := decodeHeader_short h <;> simp [he]
    refine (decWf_header (s := s.taken new rest) hd).2 ⟨hv, hdh, ?_, ?_, Nat.add_le_add_right hcur _⟩
    · show s.p + new.length = (s.part ++ new).length
      rw [List.length_append, hp]
    · exact hkind.elim (fun he => .inl (he ▸ h)) (fun he => .inr (he ▸ h))
  | suffix =>
    obtain ⟨hv, hdh, -, hp, hcur⟩ := (decWf_suffix hd).1 hs
    refine (decWf_suffix (s := s.taken new rest) hd).2 ⟨hv, hdh, decodeSuffix_short h, ?_, Nat.add_le_add_right hcur _⟩
    show s.p + new.length = s.dh.bhLen.toNat + s.dh.mhLen.toNat + (s.part ++ new).length
    rw [List.length_append, hp, Nat.add_assoc]

/-- The bytes that a DEC in progress holds do not spell its part yet. -/
theorem reading_part_short {s : State} {k : Part} (hs : s.decWf) (hd : s.dec = .reading k) :
    ∃ e, decode k s.part = .error e := by
  cases k with
  | header =>
    obtain ⟨-, -, -, h, -⟩ := (decWf_header hd).1 hs
    exact h.elim (fun h => ⟨_, h⟩) (fun h => ⟨_, h⟩)
  | suffix =>
    obtain ⟨-, -, h, -, -⟩ := (decWf_suffix hd).1 hs
    exact ⟨_, decodeSuffix_of_length h⟩

theorem fetch_keeps_decWf {s t : State} {k : Part} (hs : s.decWf) (hd : s.dec = .reading k) (ht : fetch k s = .next t) :
    t.decWf := by
  obtain ⟨new, rest, h⟩ := fetch_cases k s
  have broken (e : DecodeError) (h : decode k (s.part ++ new) = .error e) :
      (s.taken new rest).p ≤ 17 ∧ (s.taken new rest).p ≤ (s.taken new rest).cur :=
    ⟨(reading_short hs hd h).1, Nat.add_le_add_right (reading_short hs hd h).2 _⟩
  obtain ⟨i, r, -, hdec, hr, hf⟩ | ⟨-, -, ⟨e, he⟩, hf⟩ | ⟨-, ⟨e, he⟩, hf⟩ | ⟨x, -, ⟨e, he⟩, hf⟩ := h <;> rw [hf] at ht
  · rw [hr (reading_part_short hs hd)] at hdec
    exact exec_complete_decWf hs hd hdec ht
  · cases ht
    exact decWf_taken_short hs hd he
  · cases ht
    exact decWf_raiseDec (.inr (.inl rfl)) (broken e he).1 (broken e he).2 nofun
  · cases ht
    exact decWf_raiseDec (.inr (.inr rfl)) (broken e he).1 (broken e he).2 nofun

/-- ENC's response: at most 18 bytes, and none with an error (R150, R152). -/
theorem execEnc_encWf {h : EncOperand} {s t : State} (ht : execEnc h s = .next t) : t.encWf := by
  obtain ⟨bs, he, hx⟩ | ⟨e, he, hx⟩ := execEnc_cases h s <;> rw [hx] at ht <;> cases ht
  · obtain ⟨-, -, hlen⟩ := encLengths h bs he
    exact ⟨.inl rfl, hlen⟩
  · exact ⟨.inr ⟨by cases e <;> simp [EncError.status], rfl⟩, Nat.zero_le _⟩

theorem execEnc_keeps_decWf {h : EncOperand} {s t : State} (hs : s.decWf) (ht : execEnc h s = .next t) : t.decWf := by
  obtain ⟨bs, -, hx⟩ | ⟨e, -, hx⟩ := execEnc_cases h s <;> rw [hx] at ht <;> cases ht <;>
    exact decWf_of_sameDecoder (sameDecoder_encRespond s h _ _) le_rfl hs

theorem startDec_decWf (s : State) : s.startDec.decWf :=
  (decWf_header (startDec_dec s)).2 ⟨rfl, rfl, rfl, .inl rfl, Nat.zero_le _⟩

theorem takeInput_keeps_inv {s t : State} (hs : s.Inv) (ht : takeInput s = .next t) : t.Inv := by
  obtain ⟨henc, hdec⟩ := hs
  have quiet {u : State} (he : sameEncoder s u) (hd : sameDecoder s u) (hc : s.cur ≤ u.cur) : u.Inv :=
    ⟨encWf_of_sameEncoder he henc, decWf_of_sameDecoder hd hc hdec⟩
  obtain rfl | ⟨h', rest, -, he⟩ | ⟨rest, -, -, rfl⟩ | ⟨h', rest, -, -, rfl⟩ | ⟨rest, -, -, rfl⟩ | ⟨rest, -, rfl⟩ |
    ⟨a, rest, -, rfl⟩ | ⟨rest, -, rfl⟩ | ⟨a, src, rest, -, -, -, rfl⟩ := takeInput_cases ht
  · exact ⟨henc, hdec⟩
  · exact ⟨execEnc_encWf he, execEnc_keeps_decWf (s := s.withInputs rest) hdec he⟩
  · exact ⟨henc, startDec_decWf _⟩
  · exact quiet ⟨rfl, rfl, rfl⟩ ⟨rfl, rfl, rfl, rfl, rfl, rfl⟩ le_rfl
  · exact quiet ⟨rfl, rfl, rfl⟩ ⟨rfl, rfl, rfl, rfl, rfl, rfl⟩ le_rfl
  · exact resetCodec_inv _
  · exact quiet ⟨rfl, rfl, rfl⟩ ⟨rfl, rfl, rfl, rfl, rfl, rfl⟩ le_rfl
  · exact quiet ⟨rfl, rfl, rfl⟩ ⟨rfl, rfl, rfl, rfl, rfl, rfl⟩ le_rfl
  · cases a <;> exact quiet ⟨rfl, rfl, rfl⟩ ⟨rfl, rfl, rfl, rfl, rfl, rfl⟩ (hostTake_cur_ge (s.withInputs rest) _ src)

/-- Settles O4: the decoder's part keeps its half and does not touch the encoder's; each act of the host keeps both. -/
theorem stepKeepsInvariant : Obligations.StepKeepsInvariant := by
  intro s t hs h
  obtain ⟨k, hd, -, hf⟩ | ⟨-, hact⟩ := step_cases h
  · obtain ⟨henc, hdec⟩ := hs
    obtain ⟨t', ht, ⟨-, hframe, -⟩, -⟩ := fetch_answers k s
    obtain rfl : t' = t := by rw [hf] at ht; cases ht; rfl
    exact ⟨encWf_of_sameEncoder hframe henc, fetch_keeps_decWf hdec hd hf⟩
  · exact takeInput_keeps_inv hs hact

/-! ## DECs that end with an error (O9, O24, O25) -/

/-- An error raised behind the bytes `new` ends the DEC in terms of the state before them. -/
theorem decFailed_taken (s : State) (new : List Byte) (rest : List Answer) (k : Status) (io : Config.IoErr)
    (d : DecResult) : decFailed s ((s.taken new rest).raiseDec k io d) k io (s.p + new.length) :=
  decFailed_raiseDec (s.taken new rest) k io d

/-- Settles O24: either answer raises its error behind the bytes delivered, of which there are at most 17. -/
theorem brokenStreamEndsTheDec : Obligations.BrokenStreamEndsTheDec := by
  intro s k new rest e hd h
  have pos (hs : s.Inv) : (BitVec.ofNat 5 (s.p + new.length)).toNat = s.p + new.length ∧ s.p + new.length ≤ 17 := by
    have hle := (reading_short hs.2 hd h).1
    exact ⟨by rw [BitVec.toNat_ofNat, Nat.mod_eq_of_lt (by omega)], hle⟩
  constructor
  · intro hs
    exact ⟨_, (step_reading hd (by simp [hs])).trans (fetch_of_ended hs h), decFailed_taken s new rest _ _ _, rfl, rfl, pos⟩
  · intro x hs
    exact ⟨_, (step_reading hd (by simp [hs])).trans (fetch_of_failed hs h), decFailed_taken s new rest _ _ _, rfl, rfl, pos⟩

/-- Settles O25: the basic header is the whole form, and no answer behind it is asked for. -/
theorem missingEntryEndsTheDec : Obligations.MissingEntryEndsTheDec := by
  intro s f bs rest hd hpart hp hwf henc hs hmiss
  rw [show mkCh3 f = Body.f3.form f from rfl] at hwf henc
  rw [form_wf] at hwf
  rw [encode_form] at henc
  cases henc
  rw [← idOf_eq] at hmiss
  obtain ⟨-, hstep⟩ := step_formBytes hd hpart hwf hs
  obtain ⟨u, hu, hfail, hbh, hcur, hrest⟩ := exec_mkCh3_missing (s := s.taken (formBytes f .f3) rest) hmiss
  have hp' : (s.taken (formBytes f .f3) rest).p = (formBytes f .f3).length := by
    show s.p + _ = _
    rw [hp, Nat.zero_add]
  rw [hp'] at hfail
  have hlen : (formBytes f .f3).length = (idWidth f).toNat := formBytes_length f .f3
  have := (idWidth f).isLt
  exact ⟨u, hstep.trans hu, hfail, by omega, by rw [hbh, hlen], hcur, hrest⟩

/-- Settles O9: 0xFF is the basic header of format 3 with the id field 63, which is no marker. -/
theorem firstByte255IsOrdinary : Obligations.FirstByte255IsOrdinary := by
  refine ⟨fun bs => decodeHeader_formBytes (id := .b1 63) rfl .f3 bs, fun s rest hd hpart hp hs hmiss => ?_⟩
  obtain ⟨t, ht, hfail, -⟩ := missingEntryEndsTheDec s (.b1 63) [0xFF] rest hd hpart hp rfl rfl hs hmiss
  exact ⟨t, ht, hfail⟩

end Sys2Proof.Claims

/-! ## DEC of what ENC made (O27, O28)

The decoder's first step reads the form ENC made and gives the message header of R162's table; whether a suffix follows is
then the sentinel test of what was read, and whether one was appended the extension test of the operand. -/

namespace Sys2Proof.Claims

open Sys2Proof Sys2Proof.Machine

/-! ### Running the decoder -/

theorem settle_of_stopped {s : State} (n : Nat) (h : s.dec = .idle ∨ s.src = []) : settle n s = .next s := by
  cases n with
  | zero => rfl
  | succ n =>
    unfold settle
    obtain h | h := h <;> rw [h]
    cases s.dec <;> rfl

theorem settle_of_step {s t : State} {k : Part} (n : Nat) (hd : s.dec = .reading k) (hs : s.src ≠ [])
    (ht : step s = .next t) : settle (n + 1) s = settle n t := by
  obtain ⟨a, src, h⟩ := List.exists_cons_of_ne_nil hs
  rw [settle, hd, h]
  simp only [ht]

theorem settle_of_fetch {s t : State} {k : Part} (n : Nat) (hd : s.dec = .reading k) (hs : s.src ≠ [])
    (ht : fetch k s = .next t) : settle (n + 1) s = settle n t :=
  settle_of_step n hd hs ((step_reading hd hs).trans ht)

theorem stopped_or_reading (s : State) :
    (s.dec = .idle ∨ s.src = []) ∨ ∃ k, s.dec = .reading k ∧ s.src ≠ [] := by
  cases hd : s.dec with
  | idle => exact .inl (.inl rfl)
  | reading k =>
    by_cases hs : s.src = []
    · exact .inl (.inr hs)
    · exact .inr ⟨k, rfl, hs⟩

/-- A decoder that has become idle does not run on. -/
theorem settle_of_idle {n : Nat} {s t : State} (h : settle n s = .next t) (hd : t.dec = .idle) :
    settle (n + 1) s = .next t := by
  induction n generalizing s with
  | zero =>
    cases h
    exact settle_of_stopped 1 (.inl hd)
  | succ n ih =>
    obtain hs | ⟨k, hk, hsrc⟩ := stopped_or_reading s
    · rw [settle_of_stopped _ hs] at h ⊢
      exact h
    · obtain ⟨u, hu, -⟩ := fetch_answers k s
      rw [settle_of_fetch _ hk hsrc hu] at h ⊢
      exact ih h

/-- A decoder at the start of the suffix records the four bytes that come next. -/
theorem step_be32 {s : State} {x : U32} {rest : List Answer} (hd : s.dec = .reading .suffix) (hpart : s.part = [])
    (hs : s.src = (be32 x).map Answer.byte ++ rest) :
    s.src ≠ [] ∧ step s = .next ((s.taken (be32 x) rest).finishDec (withExt s.dh x)) := by
  have hread : decode .suffix (s.part ++ be32 x) = .ok (.xts x, []) := by
    rw [hpart, List.nil_append, ← List.append_nil (be32 x)]
    exact decodeSuffix_be32 x []
  have hne : s.src ≠ [] := by rw [hs]; exact append_ne_nil_of_bytes (List.cons_ne_nil _ _) rest
  exact ⟨hne, (step_reading hd hne).trans ((fetch_of_decode hs hread).trans (exec_xts_eq x _))⟩

/-- A DEC on the bytes of a form, up to the end of the message header. -/
theorem dec_form {s : State} {id : IdField} {b : Body} {m : MessageHeader} {rest : List Answer} (hwf : idWf id = true)
    (hm : b.message s.hist (idOf id) = some m) (hs : s.src = (formBytes id b).map Answer.byte ++ rest) :
    ∃ t, (∀ n, settle (n + 1) s.startDec = settle n t) ∧
      formDecoded (s.startDec.taken (formBytes id b) rest) t b.fmt (idValue id) m (idWidth id).toNat
        (Config.mhLen b.fmt) := by
  obtain ⟨hne, hstep⟩ := step_formBytes (startDec_dec s) (startDec_part s) hwf hs
  exact ⟨_, fun n => settle_of_step n (startDec_dec s) hne (hstep.trans (exec_form_some hm)),
    formDecoded_afterMessage _ id b m⟩

/-- The rest of a DEC that awaits the suffix, on four bytes. -/
theorem dec_suffix {t : State} {x : U32} {rest : List Answer} (hd : t.dec = .reading .suffix) (hpart : t.part = [])
    (hs : t.src = (be32 x).map Answer.byte ++ rest) :
    ∃ v, settle 1 t = .next v ∧ v.dec = .idle ∧ v.dhValid = true ∧ v.dh.status = .ok ∧ v.dh.header.ext = x ∧
      v.dh.header.extV = true ∧ v.dh.header.basic = t.dh.header.basic ∧ v.dh.header.message = t.dh.header.message ∧
      v.dh.consumed.toNat = t.dh.bhLen.toNat + t.dh.mhLen.toNat + 4 ∧ v.cur = t.cur + 4 ∧ v.src = rest := by
  obtain ⟨hne, hstep⟩ := step_be32 hd hpart hs
  exact ⟨_, settle_of_step 0 hd hne hstep, rfl, rfl, rfl, rfl, rfl, rfl, rfl, withExt_total_toNat t.dh x, rfl, rfl⟩

/-! ### The message header that comes back (R162) -/

theorem timeOf_clamp24 (v : U32) : timeOf (clamp24 v) = BitVec.ofNat 32 (min v.toNat 16777215) := by
  apply BitVec.eq_of_toNat_eq
  rw [timeOf_toNat, clamp24_toNat, BitVec.toNat_ofNat]
  omega

theorem accepted_formats {f : BitVec 8} (h : f.toNat ≤ 3) : f = 0 ∨ f = 1 ∨ f = 2 ∨ f = 3 := by
  have h4 : f.toNat = 0 ∨ f.toNat = 1 ∨ f.toNat = 2 ∨ f.toNat = 3 := by omega
  exact h4.imp (BitVec.eq_of_toNat_eq ·) (·.imp (BitVec.eq_of_toNat_eq ·)
    (·.imp (BitVec.eq_of_toNat_eq ·) (BitVec.eq_of_toNat_eq ·)))

theorem encForm_message {h : EncOperand} {hist : List ChunkHeader} {e : ChunkHeader} (hf : h.format.toNat ≤ 3)
    (he : h.format = 3 → histLookup hist h.subStreamID = some e) :
    (encForm h).2.message hist h.subStreamID = some (decodedMessage h e) := by
  obtain h0 | h0 | h0 | h0 := accepted_formats hf
  · simp [encForm, encBody, Body.message, message0, decodedMessage, h0, timeOf_clamp24]
  · simp [encForm, encBody, Body.message, message1, decodedMessage, h0, timeOf_clamp24]
  · simp [encForm, encBody, Body.message, message2, decodedMessage, h0, timeOf_clamp24]
  · simp [encForm, encBody, Body.message, decodedMessage, h0, he h0]

/-- Settles O27: the first step reads the form; where a suffix is read, the second reads what ENC appended. -/
theorem decOfEnc : Obligations.DecOfEnc := by
  intro s h e rest hidle hf h2 hmax he
  have hid : idOf (encForm h).1 = h.subStreamID := idOf_encId hmax
  have hm : (encForm h).2.message s.hist (idOf (encForm h).1) = some (decodedMessage h e) := hid ▸ encForm_message hf he
  refine ⟨_, exec_enc_form hmax hf s, rfl, ?_⟩
  simp only [encRespond_out]
  generalize hout : formBytes (encForm h).1 (encForm h).2 ++ xtsEnc h.message = out
  have hlen : out.length =
      (idWidth (encForm h).1).toNat + Config.mhLen (encForm h).2.fmt + (xtsEnc h.message).length := by
    rw [← hout, List.length_append, formBytes_length]
  obtain ⟨t, hrun, hfmt, hidv, hmsg, hbh, hmh, hextV, hext, -, hsat, hunsat, -, ⟨hsrc, -⟩, hcur, -⟩ :=
    dec_form (s := { s.encRespond h .ok out with src := out.map Answer.byte ++ rest }) (id := (encForm h).1)
      (b := (encForm h).2) (encId_wf h2) hm
      (by rw [← hout, List.map_append, List.append_assoc])
  replace hsrc : t.src = (xtsEnc h.message).map Answer.byte ++ rest := hsrc
  replace hcur : t.cur = s.cur + (formBytes (encForm h).1 (encForm h).2).length := hcur
  rw [formBytes_length] at hcur
  refine ⟨_, t, exec_dec_of_idle hidle, hrun 0, ?_, ?_, hmsg, by omega, ?_, ?_, ?_⟩
  · rw [hfmt, encForm, encBody_fmt, setWidthFormat_toNat hf]
  · rw [← hid]
    exact BitVec.eq_of_toNat_eq (hidv.trans (idOf_toNat _).symm)
  · refine ⟨fun hd => by_contra fun hno => ?_, fun hy => (hsat hy).1⟩
    rw [(hunsat hno).1] at hd
    cases hd
  · intro hy x hx
    obtain ⟨hd, -, hpart, -⟩ := hsat hy
    rw [xtsEnc_some hx] at hsrc hlen
    obtain ⟨v, hv, hvd, hvv, hvs, hvx, hvx', hvb, hvm, hvc, hvcur, hvsrc⟩ := dec_suffix hd hpart hsrc
    have h4 : (be32 x).length = 4 := rfl
    exact ⟨v, (hrun 1).trans hv, hvd, hvv, hvs, hvx, hvx', hvb, hvm.trans hmsg, by omega, by omega, hvsrc⟩
  · intro hy
    obtain ⟨hd, hv, hst, hcons, -, -⟩ := hunsat hy
    refine ⟨hd, hv, hst, hextV, hext, fun hx => ?_, fun x hx => ?_⟩
    · rw [xtsEnc_none hx, List.length_nil] at hlen
      rw [xtsEnc_none hx] at hsrc
      exact ⟨by omega, by omega, hsrc⟩
    · rw [xtsEnc_some hx] at hsrc hlen
      have h4 : (be32 x).length = 4 := rfl
      exact ⟨by omega, hsrc⟩

/-! ### Normal headers (R163) -/

theorem operand_format_toNat (h : ChunkHeader) : h.operand.format.toNat = h.basic.format.toNat := by
  have := h.basic.format.isLt
  show (h.basic.format.setWidth 8).toNat = _
  rw [BitVec.toNat_setWidth]
  omega

theorem ofNat_min_of_le {v : U32} (h : v.toNat ≤ Config.S) : BitVec.ofNat 32 (min v.toNat 16777215) = v := by
  rw [Nat.min_eq_left (show v.toNat ≤ 16777215 from h), BitVec.ofNat_toNat, BitVec.setWidth_eq]

/-- The message fields of a normal header are those the table of R162 gives back. -/
theorem decodedMessage_of_normal {h e : ChunkHeader} {hist : List ChunkHeader} (hn : h.normal hist)
    (he : h.basic.format = 3 → e.message = h.message) : decodedMessage h.operand e = h.message := by
  obtain ⟨-, -, ht, hd, -, -, -, h0, h1, h2, -⟩ := hn
  obtain ⟨⟨f, id⟩, ⟨ts, td, ml, mt, ms⟩, v, x⟩ := h
  obtain hf | hf | hf | hf : f = 0 ∨ f = 1 ∨ f = 2 ∨ f = 3 := format_cases f
  · obtain rfl := h0 hf
    simp [decodedMessage, ChunkHeader.operand, hf, ofNat_min_of_le ht]
  · obtain ⟨rfl, rfl⟩ := h1 hf
    simp [decodedMessage, ChunkHeader.operand, hf, ofNat_min_of_le hd]
  · obtain ⟨rfl, rfl, rfl, rfl⟩ := h2 hf
    simp [decodedMessage, ChunkHeader.operand, hf, ofNat_min_of_le hd]
  · simp [decodedMessage, ChunkHeader.operand, hf, he hf]

/-- A normal header with a saturated time field has that field's value in `ext`, so it is what ENC appends. -/
theorem encExt_of_normal {h : ChunkHeader} {hist : List ChunkHeader} (hn : h.normal hist) (hs : saturated h.message) :
    h.extV = true ∧ encExt h.message = some h.ext := by
  obtain ⟨-, -, ht, hd, hv, hx, -⟩ := hn
  have hvt : h.extV = true := hv.2 hs
  have hS : h.ext.toNat = 16777215 := hx hvt
  refine ⟨hvt, ?_⟩
  by_cases hts : h.message.timestamp.toNat = 16777215
  · rw [encExt_timestamp hts.ge, BitVec.eq_of_toNat_eq (hts.trans hS.symm)]
  · have htd : h.message.timestampDelta.toNat = 16777215 := hs.resolve_left hts
    rw [encExt_delta (Nat.lt_of_le_of_ne ht hts) htd.ge, BitVec.eq_of_toNat_eq (htd.trans hS.symm)]

/-- A normal header with no saturated time field has no extension, and ENC appends none. -/
theorem encExt_of_normal_unsaturated {h : ChunkHeader} {hist : List ChunkHeader} (hn : h.normal hist)
    (hs : ¬ saturated h.message) : h.extV = false ∧ h.ext = 0 ∧ encExt h.message = none := by
  obtain ⟨-, -, ht, hd, hv, -, hx, -⟩ := hn
  obtain ⟨hts, htd⟩ := not_or.1 hs
  have hvf : h.extV = false := Bool.eq_false_iff.2 fun hvt => hs (hv.1 hvt)
  exact ⟨hvf, hx hvf, encExt_none (Nat.lt_of_le_of_ne ht hts) (Nat.lt_of_le_of_ne hd htd)⟩

theorem chunkHeader_eq {a b : ChunkHeader} (hf : a.basic.format.toNat = b.basic.format.toNat)
    (hi : a.basic.subStreamID = b.basic.subStreamID) (hm : a.message = b.message) (hv : a.extV = b.extV)
    (hx : a.ext = b.ext) : a = b := by
  obtain ⟨⟨fa, ia⟩, ma, va, xa⟩ := a
  obtain ⟨⟨fb, ib⟩, mb, vb, xb⟩ := b
  obtain rfl := BitVec.eq_of_toNat_eq hf
  cases hi; cases hm; cases hv; cases hx
  rfl

/-- Settles O28: a normal header is one that the table of R162 gives back, with the suffix read exactly where appended. -/
theorem normalHeadersRoundTrip : Obligations.NormalHeadersRoundTrip := by
  intro s h rest hidle hn
  obtain ⟨e, hlook, hemsg⟩ : ∃ e, (h.operand.format = 3 → histLookup s.hist h.operand.subStreamID = some e) ∧
      (h.basic.format = 3 → e.message = h.message) := by
    obtain ⟨-, -, -, -, -, -, -, -, -, -, h3⟩ := hn
    by_cases hf : h.basic.format = 3
    · obtain ⟨e, he, hem⟩ := h3 hf
      exact ⟨e, fun _ => he, fun _ => hem⟩
    · refine ⟨h, fun hf' => absurd (BitVec.eq_of_toNat_eq ?_) hf, fun _ => rfl⟩
      rw [← operand_format_toNat, hf']
      rfl
  have hmsg := decodedMessage_of_normal hn hemsg
  have ⟨h2, hmax, _⟩ := hn
  have hf : h.operand.format.toNat ≤ 3 := operand_format_toNat h ▸ Nat.le_of_lt_succ h.basic.format.isLt
  obtain ⟨w, hw, hst, u, t, hu, ht, hfmt, hid, htmsg, -, -, hsat, hunsat⟩ :=
    decOfEnc s h.operand e rest hidle hf h2 hmax hlook
  rw [hmsg] at hsat hunsat htmsg
  rw [operand_format_toNat] at hfmt
  refine ⟨w, hw, hst, u, ?_⟩
  by_cases hs : saturated h.message
  · obtain ⟨hv, hx⟩ := encExt_of_normal hn hs
    obtain ⟨v, hrun, hvd, hvv, hvs, hvx, hvx', hvb, hvm, hvc, hvcur, hvsrc⟩ := hsat hs _ hx
    exact ⟨v, hu, hrun, hvd, hvv, hvs, chunkHeader_eq (hvb ▸ hfmt) (hvb ▸ hid) hvm (hvx'.trans hv.symm) hvx, hvc, hvsrc,
      hvcur⟩
  · obtain ⟨hv, hx, hnone⟩ := encExt_of_normal_unsaturated hn hs
    obtain ⟨hd, htv, hts, htx', htx, hno, -⟩ := hunsat hs
    obtain ⟨hc, hcur, hsrc⟩ := hno hnone
    exact ⟨t, hu, settle_of_idle ht hd, hd, htv, hts, chunkHeader_eq hfmt hid htmsg (htx'.trans hv.symm)
      (htx.trans hx.symm), hc, hsrc, hcur⟩

end Sys2Proof.Claims

/-! ## DEC as a whole (O20 to O22, O26)

The pseudocode asks for one byte after another; the machine takes the bytes of a part at once. Both come out alike because a
source either has the bytes of a whole part in front, or some bytes that are too short and behind them an answer that is no
byte, or none. -/

namespace Sys2Proof.Claims

open Sys2Proof Sys2Proof.Machine

/-! ### Splitting a source at the end of a part -/

/-- The source gives no byte next. -/
def noByte (src : List Answer) : Prop := ∀ b rest, src ≠ .byte b :: rest

/-- How a DEC comes out after `p` bytes where the source gives no byte next (R204, R205, R251). -/
def broken (p : Nat) (src : List Answer) : DecEnd := srcRead p src fun _ p _ => .waiting p

theorem srcRead_noByte {src : List Answer} (h : noByte src) (p : Nat) (k : Byte → Nat → List Answer → DecEnd) :
    srcRead p src k = broken p src := by
  match src, h with
  | [], _ => rfl
  | .byte b :: rest, h => exact absurd rfl (h b rest)
  | .ended :: rest, _ => rfl
  | .failed x :: rest, _ => rfl

theorem decode_nil (k : Part) : ∃ e, decode k [] = .error e := by cases k <;> exact ⟨_, rfl⟩

/-- A source has a whole part in front, or bytes too short for it and no byte behind them. -/
theorem source_split (k : Part) (src : List Answer) :
    (∃ new rest i, src = new.map Answer.byte ++ rest ∧ decode k new = .ok (i, [])) ∨
    (∃ new rest e, src = new.map Answer.byte ++ rest ∧ noByte rest ∧ decode k new = .error e) := by
  rcases hp : pull k [] src with ⟨bs, rest, stop⟩
  obtain ⟨e, he⟩ := decode_nil k
  obtain ⟨_, rfl, h⟩ := pull_cases hp
  obtain ⟨i, r, rfl, hs, -⟩ | ⟨-, hs, -, e', hd⟩ | ⟨-, hs, e', hd⟩ | ⟨x, -, hs, e', hd⟩ := h
  · exact .inl ⟨bs, rest, i, hs, pull_complete he hp⟩
  · exact .inr ⟨bs, [], e', by rw [hs, List.append_nil], nofun, hd⟩
  · exact .inr ⟨bs, _, e', hs, nofun, hd⟩
  · exact .inr ⟨bs, _, e', hs, nofun, hd⟩

/-! ### The pseudocode on a whole part and on bytes that are too short -/

/-- `F` begins with `n` byte requests, whatever the bytes are. -/
def Requests : Nat → (Nat → List Answer → DecEnd) → Prop
  | 0, _ => True
  | n + 1, F => ∃ k, (∀ p src, F p src = srcRead p src k) ∧ ∀ b, Requests n (k b)

/-- Where fewer bytes than that come, the answer behind them decides. -/
theorem requests_short {n : Nat} {F : Nat → List Answer → DecEnd} (h : Requests n F) {bs : List Byte}
    {rest : List Answer} (hl : bs.length < n) (hr : noByte rest) (p : Nat) :
    F p (bs.map Answer.byte ++ rest) = broken (p + bs.length) rest := by
  induction bs generalizing n F p with
  | nil =>
    obtain ⟨n, rfl⟩ := Nat.exists_eq_succ_of_ne_zero (Nat.ne_of_gt hl)
    obtain ⟨k, hk, -⟩ := h
    exact (hk _ _).trans (srcRead_noByte hr p k)
  | cons b bs ih =>
    obtain ⟨n, rfl⟩ := Nat.exists_eq_succ_of_ne_zero (Nat.ne_of_gt (Nat.zero_lt_of_lt hl))
    obtain ⟨k, hk, hb⟩ := h
    rw [hk, List.length_cons, Nat.add_comm bs.length, ← Nat.add_assoc]
    exact ih (hb b) (Nat.lt_of_succ_lt_succ hl) (p + 1)

theorem wholeMessage_requests (hist : List ChunkHeader) (f : BitVec 2) (id : U32) (bh : Nat) :
    Requests (Config.mhLen f) (wholeMessage hist f id bh) := by
  obtain rfl | rfl | rfl | rfl := format_cases f
  · show Requests 11 _
    refine ⟨_, fun _ _ => if_pos rfl, fun _ => ?_⟩
    iterate 10 refine ⟨_, fun _ _ => rfl, fun _ => ?_⟩
    trivial
  · show Requests 7 _
    refine ⟨_, fun _ _ => (if_neg (by decide)).trans (if_pos rfl), fun _ => ?_⟩
    iterate 6 refine ⟨_, fun _ _ => rfl, fun _ => ?_⟩
    trivial
  · show Requests 3 _
    refine ⟨_, fun _ _ => (if_neg (by decide)).trans ((if_neg (by decide)).trans (if_pos rfl)), fun _ => ?_⟩
    iterate 2 refine ⟨_, fun _ _ => rfl, fun _ => ?_⟩
    trivial
  · trivial

theorem srcRead4_requests (k : Byte → Byte → Byte → Byte → Nat → List Answer → DecEnd) :
    Requests 4 (fun p src => srcRead4 p src k) := by
  iterate 4 refine ⟨_, fun _ _ => rfl, fun _ => ?_⟩
  trivial

/-- R106 to R109. -/
theorem wholeDec_idBytes (hist : List ChunkHeader) (f : BitVec 2) {id : IdField} (h : idWf id = true)
    (src : List Answer) : wholeDec hist ((idBytes f id).map Answer.byte ++ src) =
      wholeMessage hist f (idOf id) (idWidth id).toNat (idWidth id).toNat src := by
  cases id with
  | b1 cs =>
    obtain ⟨h0, h1⟩ := wfId_iff.1 h
    have h0' : cs.toNat ≠ 0 := fun he => h0 (BitVec.eq_of_toNat_eq he)
    have h1' : cs.toNat ≠ 1 := fun he => h1 (BitVec.eq_of_toNat_eq he)
    simp [wholeDec, idBytes, bh1, srcRead, h0', h1', idOf, idB1, idWidth]
  | b2 i => simp [wholeDec, idBytes, bh2, srcRead, Config.mark2, idOf, idB2, idWidth, Config.ssidBias]
  | b3 i => simp [wholeDec, idBytes, bh3, be16, srcRead, Config.mark3, idOf, idB3, idWidth, Config.ssidBias]

/-- R127 to R130. -/
theorem wholeMessage_some {hist : List ChunkHeader} {b : Body} {id : U32} {m : MessageHeader}
    (h : b.message hist id = some m) (bh p : Nat) (src : List Answer) :
    wholeMessage hist b.fmt id bh p (b.bytes.map Answer.byte ++ src) =
      wholeXts b.fmt id m bh (Config.mhLen b.fmt) (p + Config.mhLen b.fmt) src := by
  cases b with
  | f0 t l y m' =>
    cases h
    simp [wholeMessage, Body.fmt, Body.bytes, mh0, be24, le32, srcRead24, srcRead4, srcRead, message0, Config.mhLen]
  | f1 d l y =>
    cases h
    simp [wholeMessage, Body.fmt, Body.bytes, mh1, be24, srcRead24, srcRead, message1, Config.mhLen]
  | f2 d =>
    cases h
    simp [wholeMessage, Body.fmt, Body.bytes, mh2, be24, srcRead24, srcRead, message2, Config.mhLen]
  | f3 =>
    obtain ⟨e, he, rfl⟩ := Option.map_eq_some_iff.1 h
    simp [wholeMessage, Body.fmt, Body.bytes, he, Config.mhLen]

/-- R131. -/
theorem wholeMessage_none {hist : List ChunkHeader} {b : Body} {id : U32} (h : b.message hist id = none) (bh p : Nat)
    (src : List Answer) : wholeMessage hist b.fmt id bh p (b.bytes.map Answer.byte ++ src) =
      .error .noPreviousChunk Config.IoErr.zero p src := by
  obtain rfl := message_eq_none h
  simp [wholeMessage, Body.fmt, Body.bytes, Option.map_eq_none_iff.1 h]

theorem wholeDec_form_some {hist : List ChunkHeader} {id : IdField} {b : Body} {m : MessageHeader}
    (hwf : idWf id = true) (h : b.message hist (idOf id) = some m) (rest : List Answer) :
    wholeDec hist ((formBytes id b).map Answer.byte ++ rest) =
      wholeXts b.fmt (idOf id) m (idWidth id).toNat (Config.mhLen b.fmt) (formBytes id b).length rest := by
  rw [formBytes_length, formBytes, List.map_append, List.append_assoc, wholeDec_idBytes hist b.fmt hwf,
    wholeMessage_some h]

theorem wholeDec_form_none {hist : List ChunkHeader} {id : IdField} {b : Body} (hwf : idWf id = true)
    (h : b.message hist (idOf id) = none) (rest : List Answer) :
    wholeDec hist ((formBytes id b).map Answer.byte ++ rest) =
      .error .noPreviousChunk Config.IoErr.zero (idWidth id).toNat rest := by
  rw [formBytes, List.map_append, List.append_assoc, wholeDec_idBytes hist b.fmt hwf, wholeMessage_none h]

theorem wholeDec_short (hist : List ChunkHeader) {new : List Byte} {rest : List Answer} {e : DecodeError}
    (h : decodeHeader new = .error e) (hr : noByte rest) :
    wholeDec hist (new.map Answer.byte ++ rest) = broken new.length rest := by
  obtain ⟨-, rfl⟩ | ⟨-, b0, tl, rfl, hl⟩ | ⟨-, id, f, mid, hwf, rfl, hl⟩ := decodeHeader_short h
  · exact srcRead_noByte hr 0 _
  · unfold widthOf at hl
    split_ifs at hl with h2 h3
    · have hc : (csOf b0).toNat = 0 := by rw [h2]; rfl
      match tl, hl with
      | [], _ => exact (if_pos hc).trans (srcRead_noByte hr 1 _)
    · have hc : (csOf b0).toNat = 1 := by rw [h3]; rfl
      have hc' : (csOf b0).toNat ≠ 0 := by omega
      match tl, hl with
      | [], _ => exact (if_neg hc').trans ((if_pos hc).trans (srcRead_noByte hr 1 _))
      | [_], _ => exact (if_neg hc').trans ((if_pos hc).trans (srcRead_noByte hr 2 _))
    · omega
  · rw [List.map_append, List.append_assoc, wholeDec_idBytes hist f hwf, List.length_append, idBytes_length]
    exact requests_short (wholeMessage_requests hist f _ _) hl hr _

/-- The sentinel test held and the suffix comes (R143). -/
theorem wholeXts_be32 {m : MessageHeader} (h : saturated m) (f : BitVec 2) (id x : U32) (bh mh p : Nat)
    (rest : List Answer) : wholeXts f id m bh mh p ((be32 x).map Answer.byte ++ rest) =
      .ok ⟨⟨f, id⟩, m, true, x⟩ bh mh 4 rest :=
  (if_pos h).trans (by simp [be32, srcRead4, srcRead])

/-- The sentinel test held and not all of the suffix comes (R146). -/
theorem wholeXts_short {m : MessageHeader} (h : saturated m) {new : List Byte} {rest : List Answer} (hl : new.length < 4)
    (hr : noByte rest) (f : BitVec 2) (id : U32) (bh mh p : Nat) :
    wholeXts f id m bh mh p (new.map Answer.byte ++ rest) = broken (p + new.length) rest :=
  (if_pos h).trans (requests_short (srcRead4_requests _) hl hr p)

/-- The sentinel test did not hold (R145). -/
theorem wholeXts_unsaturated {m : MessageHeader} (h : ¬ saturated m) (f : BitVec 2) (id : U32) (bh mh p : Nat)
    (rest : List Answer) : wholeXts f id m bh mh p rest = .ok ⟨⟨f, id⟩, m, false, 0⟩ bh mh 0 rest :=
  if_neg h

/-! ### What the pseudocode can end with (R72, R133) -/

theorem broken_ne_unknownFormat (p : Nat) (src : List Answer) (io : Config.IoErr) (q : Nat) (rest : List Answer) :
    broken p src ≠ .error .unknownFormat io q rest := by
  match src with
  | [] => exact nofun
  | .byte _ :: _ => exact nofun
  | .ended :: _ => exact nofun
  | .failed _ :: _ => exact nofun

/-- Settles O21: a source that is too short ends with its own error, a form without an entry with another, and the rest
succeed. -/
theorem decNeverReportsUnknownFormat : Obligations.DecNeverReportsUnknownFormat := by
  intro hist src io p rest
  obtain ⟨new, src', i, rfl, hd⟩ | ⟨new, src', e, rfl, hr, hd⟩ := source_split .header src
  · obtain ⟨id, b, hwf, -, hnew⟩ := decodeHeader_inv hd
    rw [List.append_nil] at hnew
    subst hnew
    cases hm : b.message hist (idOf id) with
    | none =>
      rw [wholeDec_form_none hwf hm]
      exact nofun
    | some m =>
      rw [wholeDec_form_some hwf hm]
      by_cases hs : saturated m
      · obtain ⟨xs, left, j, rfl, hx⟩ | ⟨xs, left, e, rfl, hr, hx⟩ := source_split .suffix src'
        · obtain ⟨x, -, hxs⟩ := decodeSuffix_inv hx
          rw [hxs, List.append_nil, wholeXts_be32 hs]
          exact nofun
        · rw [wholeXts_short hs (decodeSuffix_short hx) hr]
          exact broken_ne_unknownFormat _ _ _ _ _
      · rw [wholeXts_unsaturated hs]
        exact nofun
  · rw [wholeDec_short hist hd hr]
    exact broken_ne_unknownFormat _ _ _ _ _

/-- Enough bytes hold a form. -/
theorem decodeHeader_of_length {bs : List Byte} (h : 14 ≤ bs.length) :
    ∃ id b left, idWf id = true ∧ bs = formBytes id b ++ left := by
  cases hd : decodeHeader bs with
  | error e =>
    have := decodeHeader_short_length hd
    omega
  | ok v =>
    obtain ⟨id, b, hwf, -, hbs⟩ := decodeHeader_inv hd
    exact ⟨id, b, v.2, hwf, hbs⟩

/-- Enough bytes hold a suffix. -/
theorem decodeSuffix_of_four {bs : List Byte} (h : 4 ≤ bs.length) : ∃ x left, bs = be32 x ++ left := by
  cases hd : decodeSuffix bs with
  | error e =>
    have := decodeSuffix_short hd
    omega
  | ok v =>
    obtain ⟨x, -, hbs⟩ := decodeSuffix_inv hd
    exact ⟨x, v.2, hbs⟩

/-- Settles O22: 18 bytes hold a form of at most 14 and a suffix behind it, so only the missing entry is left. -/
theorem noByteStringIsIllegal : Obligations.NoByteStringIsIllegal := by
  intro hist b0 bs rest hlen
  obtain ⟨id, b, left, hwf, hbs⟩ := decodeHeader_of_length (bs := b0 :: bs) (by rw [List.length_cons]; omega)
  have hl : 4 ≤ left.length := by
    have h := congrArg List.length hbs
    rw [List.length_cons, List.length_append, formBytes_length] at h
    have := (idWidth id).isLt
    have := mhLen_le b.fmt
    omega
  rw [hbs, List.map_append, List.append_assoc]
  cases hm : b.message hist (idOf id) with
  | none =>
    rw [wholeDec_form_none hwf hm]
    have hf : fmtOf b0 = 3 := by
      obtain ⟨b0', tl, hb, hf, -⟩ := idBytes_decode b.fmt hwf
      rw [formBytes, hb] at hbs
      rw [(List.cons.inj hbs).1, hf, message_eq_none hm]
      rfl
    exact .inr ⟨hf, _, _, idWidth_pos id, Nat.le_of_lt_succ (idWidth id).isLt, rfl⟩
  | some m =>
    rw [wholeDec_form_some hwf hm]
    by_cases hs : saturated m
    · obtain ⟨x, left', rfl⟩ := decodeSuffix_of_four hl
      rw [List.map_append, List.append_assoc, wholeXts_be32 hs]
      exact .inl ⟨_, _, _, _, _, rfl⟩
    · rw [wholeXts_unsaturated hs]
      exact .inl ⟨_, _, _, _, _, rfl⟩

/-! ### Where the history is looked at (R160) -/

theorem srcRead_byte (p : Nat) (b : Byte) (rest : List Answer) (k : Byte → Nat → List Answer → DecEnd) :
    srcRead p (.byte b :: rest) k = k b (p + 1) rest := rfl

theorem srcRead_congr {k k' : Byte → Nat → List Answer → DecEnd} (p : Nat) (src : List Answer)
    (h : ∀ b p src, k b p src = k' b p src) : srcRead p src k = srcRead p src k' := by
  rw [show k = k' from funext fun b => funext fun p => funext fun src => h b p src]

/-- Two histories on which the message part comes out alike for every id a basic header can spell. -/
theorem wholeDec_congr {h1 h2 : List ChunkHeader} {b0 : Byte}
    (h : ∀ id : U32, 2 ≤ id.toNat → id.toNat ≤ 65599 → ∀ bh p src,
      wholeMessage h1 (fmtOf b0) id bh p src = wholeMessage h2 (fmtOf b0) id bh p src) (src : List Answer) :
    wholeDec h1 (.byte b0 :: src) = wholeDec h2 (.byte b0 :: src) := by
  simp only [wholeDec, srcRead_byte]
  split_ifs with hc0 hc1
  · refine srcRead_congr _ _ fun b1 p src => h _ ?_ ?_ _ _ _ <;>
      (have := b1.isLt; rw [BitVec.toNat_ofNat]; omega)
  · refine srcRead_congr _ _ fun b1 p src => srcRead_congr _ _ fun b2 p src => h _ ?_ ?_ _ _ _ <;>
      (have := (ub16 b1 b2).isLt; rw [BitVec.toNat_ofNat]; omega)
  · refine h _ ?_ ?_ _ _ _ <;> (have := (csOf b0).isLt; rw [BitVec.toNat_ofNat]; omega)

theorem wholeMessage_of_ne_three {f : BitVec 2} (hf : f ≠ 3) (h1 h2 : List ChunkHeader) (id : U32) (bh p : Nat)
    (src : List Answer) : wholeMessage h1 f id bh p src = wholeMessage h2 f id bh p src := by
  obtain rfl | rfl | rfl | rfl := format_cases f
  · rfl
  · rfl
  · rfl
  · exact absurd rfl hf

theorem wholeMessage_three {h1 h2 : List ChunkHeader} {id : U32}
    (h : (histLookup h1 id).map ChunkHeader.message = (histLookup h2 id).map ChunkHeader.message) (bh p : Nat)
    (src : List Answer) : wholeMessage h1 3 id bh p src = wholeMessage h2 3 id bh p src := by
  cases hm : Body.f3.message h2 id with
  | none => exact (wholeMessage_none (b := .f3) (h.trans hm) bh p src).trans (wholeMessage_none hm bh p src).symm
  | some m => exact (wholeMessage_some (b := .f3) (h.trans hm) bh p src).trans (wholeMessage_some hm bh p src).symm

/-- Settles O26: format 3 uses the message fields of the entry, the other formats nothing. -/
theorem historyIsUsedByFormat3Only : Obligations.HistoryIsUsedByFormat3Only := by
  refine ⟨fun h1 h2 src h => ?_, fun h1 h2 b0 src hf => ?_⟩
  · match src with
    | [] => rfl
    | .ended :: _ => rfl
    | .failed _ :: _ => rfl
    | .byte b0 :: src =>
      refine wholeDec_congr (fun id h2 hmax bh p src => ?_) src
      by_cases hf : fmtOf b0 = 3
      · rw [hf]
        exact wholeMessage_three (h id h2 hmax) bh p src
      · exact wholeMessage_of_ne_three hf _ _ id bh p src
  · exact wholeDec_congr (fun id _ _ bh p src => wholeMessage_of_ne_three hf h1 h2 id bh p src) src

/-! ### The machine against the pseudocode (R153) -/

theorem settle_frame {n : Nat} {s t : State} (h : settle n s = .next t) : decoderFrame s t := by
  induction n generalizing s with
  | zero => cases h; exact decoderFrame_refl _
  | succ n ih =>
    obtain hs | ⟨k, hk, hsrc⟩ := stopped_or_reading s
    · rw [settle_of_stopped _ hs] at h
      cases h
      exact decoderFrame_refl _
    · obtain ⟨u, hu, hframe, -⟩ := fetch_answers k s
      rw [settle_of_fetch _ hk hsrc hu] at h
      exact decoderFrame_trans hframe (ih h)

/-- The state `t` shows the outcome of a DEC that began with the cursor at `c`. -/
def shows (c : Nat) (t : State) : DecEnd → Prop
  | .ok h bh mh xts rest =>
    t.dec = .idle ∧ t.dhValid = true ∧ t.dh.status = .ok ∧ t.dh.header = h ∧ t.dh.bhLen.toNat = bh ∧
      t.dh.mhLen.toNat = mh ∧ t.dh.xtsLen.toNat = xts ∧ t.dh.consumed.toNat = bh + mh + xts ∧ t.dh.faultPos = 0 ∧
      t.src = rest ∧ t.cur = c + (bh + mh + xts)
  | .error k io p rest =>
    t.dec = .idle ∧ t.dhValid = true ∧ t.dh.status = k ∧ t.dh.io = io ∧ t.dh.faultPos.toNat = p ∧
      t.src = rest ∧ t.cur = c + p
  | .waiting p => t.dec ≠ .idle ∧ t.dhValid = false ∧ t.p = p ∧ t.src = [] ∧ t.cur = c + p

theorem shows_raiseDec {c : Nat} {s : State} (hp : s.p ≤ 17) (hcur : s.cur = c + s.p) (k : Status) (io : Config.IoErr)
    (d : DecResult) : shows c (s.raiseDec k io d) (.error k io s.p s.src) :=
  ⟨rfl, rfl, rfl, rfl, by rw [raiseDec_dh, BitVec.toNat_ofNat, Nat.mod_eq_of_lt (by omega)], rfl, hcur⟩

/-- A part that is not all there: the machine ends or waits as the pseudocode does. -/
theorem settle_broken {c : Nat} {s : State} {k : Part} {new : List Byte} {rest : List Answer} {e : DecodeError} (n : Nat)
    (hd : s.dec = .reading k) (hv : s.dhValid = false) (hpart : s.part = []) (hcur : s.cur = c + s.p)
    (hs : s.src = new.map Answer.byte ++ rest) (hr : noByte rest) (h : decode k new = .error e)
    (hp : s.p + new.length ≤ 17) :
    ∃ t, settle (n + 1) s = .next t ∧ shows c t (broken (s.p + new.length) rest) := by
  have hdec : decode k (s.part ++ new) = .error e := by rw [hpart, List.nil_append]; exact h
  have htaken (left : List Answer) : (s.taken new left).cur = c + (s.taken new left).p := by
    show s.cur + new.length = c + (s.p + new.length)
    omega
  match rest, hr with
  | .byte b :: rest, hr => exact absurd rfl (hr b rest)
  | [], _ =>
    rw [List.append_nil] at hs
    by_cases hnew : new = []
    · subst hnew
      exact ⟨s, settle_of_stopped _ (.inr hs), by rw [hd]; exact nofun, hv, rfl, hs, hcur⟩
    · refine ⟨_, (settle_of_fetch n hd (by simp [hs, hnew]) (fetch_of_short hs hdec)).trans
        (settle_of_stopped n (.inr rfl)), ?_, hv, rfl, rfl, htaken []⟩
      show s.dec ≠ _
      rw [hd]
      exact nofun
  | .ended :: rest, _ =>
    exact ⟨_, (settle_of_fetch n hd (by simp [hs]) (fetch_of_ended hs hdec)).trans (settle_of_stopped n (.inl rfl)),
      shows_raiseDec hp (htaken rest) _ _ _⟩
  | .failed x :: rest, _ =>
    exact ⟨_, (settle_of_fetch n hd (by simp [hs]) (fetch_of_failed hs hdec)).trans (settle_of_stopped n (.inl rfl)),
      shows_raiseDec hp (htaken rest) _ _ _⟩

/-- The decoder behind a form, run to its end, against what the pseudocode does behind a message header. -/
theorem settle_afterMessage {c : Nat} {s : State} {id : IdField} {b : Body} {m : MessageHeader}
    (hp : s.p = (formBytes id b).length) (hcur : s.cur = c + s.p) :
    ∃ t, settle 1 (s.afterMessage (formResult id b m)) = .next t ∧
      shows c t (wholeXts b.fmt (idOf id) m (idWidth id).toNat (Config.mhLen b.fmt) (formBytes id b).length s.src) := by
  have hmh := formResult_mhLen_toNat id b m
  have hlen := formBytes_length id b
  obtain ⟨hsent, ha⟩ | ⟨hsent, ha⟩ := afterMessage_cases s (formResult id b m) <;> rw [ha]
  · have hs : saturated m := saturated_iff.2 hsent
    obtain ⟨xs, left, i, hsrc, hx⟩ | ⟨xs, left, e, hsrc, hr, hx⟩ := source_split .suffix s.src
    · obtain ⟨x, -, rfl⟩ := decodeSuffix_inv hx
      rw [List.append_nil] at hsrc
      obtain ⟨hne, hstep⟩ := step_be32 (awaitSuffix_dec s (formResult id b m)) (awaitSuffix_part s _)
        ((awaitSuffix_src s _).trans hsrc)
      refine ⟨_, settle_of_step 0 (awaitSuffix_dec s _) hne hstep, ?_⟩
      rw [hsrc, wholeXts_be32 hs]
      refine ⟨rfl, rfl, rfl, rfl, rfl, hmh, rfl, ?_, rfl, rfl, ?_⟩
      · exact (withExt_total_toNat (formResult id b m) x).trans (by rw [hmh]; rfl)
      · show s.cur + 4 = _
        omega
    · have hl := decodeSuffix_short hx
      rw [hsrc, wholeXts_short hs hl hr, ← hp]
      have := (idWidth id).isLt
      have := mhLen_le b.fmt
      exact settle_broken 0 (awaitSuffix_dec s _) rfl rfl hcur hsrc hr hx (by rw [awaitSuffix_p]; omega)
  · have hs : ¬ saturated m := fun hm => Bool.false_ne_true (hsent.symm.trans (saturated_iff.1 hm))
    refine ⟨_, settle_of_stopped 1 (.inl (finishDec_dec s _)), ?_⟩
    rw [wholeXts_unsaturated hs]
    refine ⟨rfl, rfl, rfl, rfl, rfl, hmh, rfl, ?_, rfl, rfl, ?_⟩
    · exact (total_toNat (formResult id b m)).trans (by rw [hmh]; rfl)
    · show s.cur = _
      omega

/-- A DEC, run until it ends or waits, shows the outcome of the pseudocode on the history and the source. -/
theorem settle_startDec_shows (s : State) :
    ∃ t, settle 2 s.startDec = .next t ∧ shows s.cur t (wholeDec s.hist s.src) := by
  obtain ⟨new, rest, i, hs, hd⟩ | ⟨new, rest, e, hs, hr, hd⟩ := source_split .header s.src
  · obtain ⟨id, b, hwf, -, rfl⟩ := decodeHeader_inv hd
    rw [List.append_nil] at hs
    obtain ⟨hne, hstep⟩ := step_formBytes (startDec_dec s) (startDec_part s) hwf ((startDec_src s).trans hs)
    have hp : (s.startDec.taken (formBytes id b) rest).p = (formBytes id b).length := Nat.zero_add _
    have hcur : (s.startDec.taken (formBytes id b) rest).cur = s.cur + (s.startDec.taken (formBytes id b) rest).p := by
      rw [hp]
      rfl
    cases hm : b.message s.hist (idOf id) with
    | some m =>
      rw [settle_of_step 1 (startDec_dec s) hne (hstep.trans (exec_form_some hm)), hs, wholeDec_form_some hwf hm]
      exact settle_afterMessage hp hcur
    | none =>
      have hw : (formBytes id b).length = (idWidth id).toNat := by
        rw [formBytes_length, message_eq_none hm]
        rfl
      have := (idWidth id).isLt
      rw [settle_of_step 1 (startDec_dec s) hne (hstep.trans (exec_form_none hm)), hs, wholeDec_form_none hwf hm,
        ← hw, ← hp]
      exact ⟨_, settle_of_stopped 1 (.inl rfl), shows_raiseDec (by omega) hcur _ _ _⟩
  · have hl := decodeHeader_short_length hd
    rw [hs, wholeDec_short s.hist hd hr, ← Nat.zero_add new.length]
    exact settle_broken 1 (startDec_dec s) rfl rfl rfl hs hr hd (by rw [startDec_p]; omega)

/-- Settles O20: the outcome is the pseudocode's, and the decoder's steps keep the frame. -/
theorem decRunsThePseudocode : Obligations.DecRunsThePseudocode := by
  intro s hidle
  obtain ⟨t, ht, hshows⟩ := settle_startDec_shows s
  obtain ⟨hhist, henc, hin, hsnk⟩ := settle_frame ht
  refine ⟨_, t, exec_dec_of_idle hidle, ht, hhist, henc, hin, hsnk, ?_⟩
  cases hw : wholeDec s.hist s.src <;> rw [hw] at hshows <;> exact hshows

end Sys2Proof.Claims
